-- ==== Sys2Proof/Word.lean ====
section
/-! DEFINITION. The word types of the block (`00_scope.md` R7): bytes, 32-bit words, the 64-bit
byte counter and the 128-bit digest output. Nothing in the block is signed. -/

namespace Sys2Proof

/-- `W8`: a byte, unsigned 0..255 (R7). -/
abbrev Byte := BitVec 8

/-- `W32`: an accumulator word, a message word or a header word (R7, `CMD_BITS = 32` of R6). -/
abbrev Word := BitVec 32

/-- `W64`: the byte counter and the bit length (R7, `COUNT_BITS = 64` of R6). -/
abbrev Word64 := BitVec 64

/-- `dout` of a response: 128 bits (`30_encoding.md` R59). -/
abbrev Dout := BitVec 128

end Sys2Proof
end

