-- ==== Sys2Proof/Config.lean ====
section
/-! DEFINITION. The parameters of `00_scope.md` R6 that the model uses by name. The others stand in
the types: `BLOCK_BYTES` 64 is the length of `Block` and the bound of a buffer index, `WORD_BITS` and
`CMD_BITS` 32 are `Word`, `COUNT_BITS` 64 is `Word64`, `LEN_BITS` 30 is the width of `Header.update`'s
length, `STATUS_BITS` 2 is the width of `Status.code`, `DIGEST_BYTES` 16 is the length of
`digestBytes`, and `N_INSTANCES`, the one parameter the spec leaves open (D14), is the argument of
`Machine.System`. The spec leaves no value undefined after a command, so there is no free value. -/

namespace Sys2Proof.Config

/-- `MAX_BURST = 2^30 - 1`: the most payload bytes one UPDATE carries (R6, `30_encoding.md` R55). -/
def maxBurst : Nat := 2 ^ 30 - 1

end Sys2Proof.Config
end

