-- ==== Sys2Proof/Syntax.lean ====
section
/-! DEFINITION. The commands of the block (`30_encoding.md` R50), what a header word decodes to (R58)
and what the decoder answers. -/

namespace Sys2Proof

/-- The three commands of R50, one constructor per row of `opcode_table.json`. The payload is part of
UPDATE, as R60 and `70_reset_and_hazards.md` R155 have it: "a model makes the payload part of the
command", so `len` is `data.length` (log 5). -/
inductive Instr
  /-- RESET (`43_reset_and_facade.md` R115). -/
  | reset
  /-- UPDATE with its payload `data[0]` first (`41_update.md` R90). -/
  | update (data : List Byte)
  /-- DIGEST (`42_digest.md` R100). -/
  | digest
deriving DecidableEq, Repr

/-- What `decode(CW)` of R58 answers from the header word alone. -/
inductive Header
  /-- `CW = 0x00000000`. -/
  | reset
  /-- `CW[31:30] = 01`, with `len = CW[29:0]`. -/
  | update (len : BitVec 30)
  /-- `CW = 0x80000000`. -/
  | digest
  /-- Every other word: a reserved encoding (R57). -/
  | illegal
deriving DecidableEq, Repr

/-- What the decoder answers from a header word and the bytes waiting on `DIN`. -/
inductive Decoded
  /-- A whole command, and the bytes of `DIN` behind its payload. -/
  | command (i : Instr) (rest : List Byte)
  /-- Rejected by name: a reserved header word (R57). -/
  | illegal
  /-- Rejected by name: an UPDATE whose payload is not all there yet (R155). -/
  | payloadShort
deriving DecidableEq, Repr

end Sys2Proof
end

