-- ==== Sys2Proof/WellFormed.lean ====
section
/-! DEFINITION. Which commands have an encoding: the payload of one UPDATE is at most `MAX_BURST`
bytes (`30_encoding.md` R53, R55). RESET and DIGEST have no operand (R50). -/

namespace Sys2Proof

/-- A command one header word can carry (R52, R53, R55). -/
def Instr.wellFormed : Instr → Bool
  | .reset => true
  | .update data => decide (data.length ≤ Config.maxBurst)
  | .digest => true

end Sys2Proof
end

