-- ==== Sys2Proof/Decode.lean ====
section
/-! DEFINITION. The decoder (`30_encoding.md` R51 to R58, R60), total on every header word and every
byte sequence, and the encoder, written from the opcode map of R56. A header word is one 32-bit value
and has no byte order (R51). -/

namespace Sys2Proof

/-- `op = CW[31:30]` (R51). -/
def opField (cw : Word) : BitVec 2 := cw.extractLsb' 30 2

/-- `arg = CW[29:0]` (R51). -/
def argField (cw : Word) : BitVec 30 := cw.extractLsb' 0 30

/-- `decode(CW)` of R58. -/
def decodeHeader (cw : Word) : Header :=
  if cw = 0x00000000 then .reset
  else if opField cw = 0b01 then .update (argField cw)
  else if cw = 0x80000000 then .digest
  else .illegal

/-- How many bytes of `DIN` the command takes, from its header alone (R58): `len` for UPDATE, none
for the others and for a reserved word. -/
def payloadLength : Header → Nat
  | .reset => 0
  | .update len => len.toNat
  | .digest => 0
  | .illegal => 0

/-- A header word with the bytes waiting on `DIN`: the command with its payload and what stays on
`DIN`, or a rejection by name (R53, R57, R60, R155). -/
def decode (cw : Word) (din : List Byte) : Decoded :=
  match decodeHeader cw with
  | .reset => .command .reset din
  | .update len =>
    if din.length < len.toNat then .payloadShort
    else .command (.update (din.take len.toNat)) (din.drop len.toNat)
  | .digest => .command .digest din
  | .illegal => .illegal

/-- The `match` column of R56's opcode map. -/
def Instr.matchWord : Instr → Word
  | .reset => 0x00000000
  | .update _ => 0x40000000
  | .digest => 0x80000000

/-- The `mask` column of R56's opcode map. -/
def Instr.maskWord : Instr → Word
  | .reset => 0xFFFFFFFF
  | .update _ => 0xC0000000
  | .digest => 0xFFFFFFFF

/-- The bytes a command puts on `DIN` (R52, R53). -/
def Instr.payload : Instr → List Byte
  | .reset => []
  | .update data => data
  | .digest => []

/-- The header word of a command: its row of R56 with `len` in `CW[29:0]` (R53, R54). -/
def Instr.header (i : Instr) : Word :=
  i.matchWord ||| (BitVec.ofNat 30 i.payload.length).setWidth 32

/-- What the issuer sends for a command: its header word and its payload (R51). -/
def encode (i : Instr) : Word × List Byte := (i.header, i.payload)

/-- As many zero bytes as the header word asks of `DIN`. -/
def zeroPayload (cw : Word) : List Byte := List.replicate (payloadLength (decodeHeader cw)) 0

/-- The command the decoder reads from an opcode-table word: bit 0 of `w` is bit 0 of the header word,
the bits from `nbits` up are 0, and the payload, which the table gives no bits, is zeros. -/
def decodeTableWord (nbits w : Nat) : Option Instr :=
  let cw : Word := BitVec.ofNat 32 (w % 2 ^ nbits)
  match decode cw (zeroPayload cw) with
  | .command i _ => some i
  | .illegal => none
  | .payloadShort => none

end Sys2Proof
end

