-- ==== Sys2Proof/Machine/Initial.lean ====
section
/-! DEFINITION. The initial accumulator words (`43_reset_and_facade.md` R116). The numbers are the
spec's GK1, supplied from general knowledge and pinned by the source's known digests (log 10). -/

namespace Sys2Proof.Machine

/-- Initial `A` (R116). -/
def initialA : Word := 0x67452301

/-- Initial `B` (R116). -/
def initialB : Word := 0xEFCDAB89

/-- Initial `C` (R116). -/
def initialC : Word := 0x98BADCFE

/-- Initial `D` (R116). -/
def initialD : Word := 0x10325476

end Sys2Proof.Machine
end

