-- ==== Sys2Proof/Machine/State.lean ====
section
/-! DEFINITION. The state of one context (`10_state.md` R10) with its three channels (`20_memory.md`
R30), the responses (`30_encoding.md` R59), the exceptions (`60_exceptions.md` R125) and the state
after hardware reset (`70_reset_and_hazards.md` R150). Plain data throughout. -/

namespace Sys2Proof.Machine

/-- The only memory of the block, the partial-block buffer `BUF` (`00_scope.md` R8), as its cells
(index, byte) with the indices rising and no cell that holds what an unlisted index reads as
(`Memory.wf`, log 7). -/
abbrev Memory := List Host.Cell

/-- What an index without a cell reads as: 0x00, the reset content of `BUF` (`10_state.md` R22). -/
def Memory.unlisted : Byte := 0x00

/-- The accumulator `(A, B, C, D) = x[0..3]` (`10_state.md` R11). COMPRESS's working variables
`a, b, c, d` have the same shape (`40_block_transform.md` R72). -/
structure Accumulator where
  a : Word
  b : Word
  c : Word
  d : Word
deriving DecidableEq, Repr

/-- The architectural state of one context: exactly the five items of R10. The accumulator stands last,
so that comparing two contexts (a proof's or the kernel's) meets the small fields before COMPRESS. -/
structure Context where
  /-- `FIN`: the finished flag (R15). -/
  fin : Bool
  /-- `FILL`: how many bytes of `BUF` carry meaning, 0..63 by its type (R14, R16). -/
  fill : Fin 64
  /-- `COUNT`: bytes accepted since the last reset, modulo 2^64 (R12). -/
  count : Word64
  /-- `BUF[0..63]` (R13). -/
  buf : Memory
  /-- `A, B, C, D` (R11). -/
  acc : Accumulator
deriving DecidableEq, Repr

/-- The status of a response (R59). Code 3 is never produced and has no constructor (U6, log 12). -/
inductive Status
  | ok
  | alreadyFinished
  | illegalCommand
deriving DecidableEq, Repr

/-- A response on `RSP`: the pair (`status`, `dout`) of R59. `dout` is absent but in the response to a
DIGEST (U5, log 12). -/
structure Response where
  status : Status
  dout : Option Dout
deriving DecidableEq, Repr

/-- The two synchronous exceptions of `60_exceptions.md` R125. -/
inductive Exception
  /-- A non-empty UPDATE in phase FINISHED (R126). -/
  | alreadyFinished
  /-- A reserved header word (R127). -/
  | illegalCommand
deriving DecidableEq, Repr

/-- One instance of the block: its context and its three channels, each a queue with the oldest
element first (`20_memory.md` R30, R35; log 1). -/
structure State where
  /-- The architectural state (R10). -/
  ctx : Context
  /-- `CMD`: header words the issuer has sent and no command has taken. -/
  cmd : List Word
  /-- `DIN`: payload bytes the issuer has sent and no command has taken. -/
  din : List Byte
  /-- `RSP`: responses the issuer has not taken. -/
  rsp : List Response
deriving DecidableEq, Repr

/-- What would stop the machine with a fault. The spec describes no such stop: its two exceptions are
responses of a block that goes on (`60_exceptions.md` R129, R133), and every command terminates
(`70_reset_and_hazards.md` R157). So there is no constructor, and no step faults (safe; log 17). -/
inductive Fault
deriving DecidableEq, Repr

/-- What would refuse an instruction. -/
inductive Refusal
  /-- Raised by `exec`'s arm of an instruction that has no meaning yet, under its mnemonic. Safe: the
  run stops. No arm raises it now (log 17). -/
  | notModelled (mnemonic : String)
deriving DecidableEq, Repr

/-- The accumulator words after reset (`43_reset_and_facade.md` R116). -/
def initialAccumulator : Accumulator := ⟨initialA, initialB, initialC, initialD⟩

/-- The initial state `S0` of `10_state.md` R22: the accumulator constants, `COUNT = 0`, `FILL = 0`,
`BUF` all zero, `FIN = 0`. -/
def Context.initial : Context :=
  { acc := initialAccumulator, count := 0, buf := [], fill := 0, fin := false }

/-- The machine right after hardware reset: `S0`, and the three channels empty (R150). -/
def State.reset : State :=
  { ctx := Context.initial, cmd := [], din := [], rsp := [] }

end Sys2Proof.Machine
end

