-- ==== Sys2Proof/Machine/Flags.lean ====
section
/-! DEFINITION. The block's only flag, `FIN` (`10_state.md` R15), and the phase it encodes (R17).
There is no carry, zero, sign or overflow flag: all arithmetic wraps silently (R15). -/

namespace Sys2Proof.Machine

/-- The phase of a context (R17). -/
inductive Phase
  | absorbing
  | finished
deriving DecidableEq, Repr

/-- ABSORBING when `FIN = 0`, FINISHED when `FIN = 1` (R17). -/
def Context.phase (c : Context) : Phase :=
  match c.fin with
  | false => .absorbing
  | true => .finished

/-- `FIN <- 1`, the last step of finalization (`42_digest.md` R101 step 6). -/
def Context.setFinished (c : Context) : Context := { c with fin := true }

/-- The numeric status code on `RSP` (`30_encoding.md` R59). -/
def Status.code : Status → BitVec 2
  | .ok => 0
  | .alreadyFinished => 1
  | .illegalCommand => 2

/-- The status an exception's response carries (`60_exceptions.md` R125). -/
def Exception.status : Exception → Status
  | .alreadyFinished => .alreadyFinished
  | .illegalCommand => .illegalCommand

end Sys2Proof.Machine
end

