-- ==== Sys2Proof/Machine/Operands.lean ====
section
/-! DEFINITION. The conversions between bytes and wider values and the 32-bit operations of
`00_scope.md` R8 and `40_block_transform.md` R83. Every conversion is little-endian
(`20_memory.md` R31). `x +32 y` is `+` on `Word`. -/

namespace Sys2Proof.Machine

/-- `LE32(b0, b1, b2, b3)`, `b0` the least significant byte (R8). -/
def le32 (b0 b1 b2 b3 : Byte) : Word := b3 ++ b2 ++ b1 ++ b0

/-- `le_bytes32(w) = (w[7:0], w[15:8], w[23:16], w[31:24])` (R8). -/
def leBytes32 (w : Word) : Vector Byte 4 :=
  #v[w.extractLsb' 0 8, w.extractLsb' 8 8, w.extractLsb' 16 8, w.extractLsb' 24 8]

/-- `rotl32(x, s) = ((x * 2^s) mod 2^32) + floor(x / 2^(32-s))`, for `1 <= s <= 31` (R8). -/
def rotl32 (x : Word) (s : Nat) : Word :=
  BitVec.ofNat 32 ((x.toNat * 2 ^ s) % 2 ^ 32 + x.toNat / 2 ^ (32 - s))

/-- `zext_64(len)`: the payload length as it is added to `COUNT` (`30_encoding.md` R54). -/
def zext64 (len : Nat) : Word64 := BitVec.ofNat 64 len

/-- A block: exactly 64 bytes (`40_block_transform.md` R70). -/
abbrev Block := Vector Byte 64

/-- A digest: exactly 16 bytes (`42_digest.md` R105). -/
abbrev Digest := Vector Byte 16

/-- The layout of the digest on `RSP`: `dout[8j+7 : 8j] = dg[j]`, so `dg[0]` is in the lowest eight bits
(`30_encoding.md` R59). -/
def doutOf (dg : Digest) : Dout :=
  le32 dg[12] dg[13] dg[14] dg[15] ++ le32 dg[8] dg[9] dg[10] dg[11]
    ++ le32 dg[4] dg[5] dg[6] dg[7] ++ le32 dg[0] dg[1] dg[2] dg[3]

end Sys2Proof.Machine
end

