-- ==== Sys2Proof/Machine/Ops.lean ====
section
/-! DEFINITION. The shared operations: reads and writes of `BUF`, responses, taking an exception,
taking a command from the channels, and what the issuer can do to the block. -/

namespace Sys2Proof.Machine

/-! ## `BUF` (`00_scope.md` R8, `10_state.md` R13) -/

/-- The canonical form: indices rising, below 64, and no cell that holds the unlisted value (log 7). -/
abbrev Memory.wf (m : Memory) : Prop :=
  m.Pairwise (fun x y => x.1 < y.1) ∧ ∀ cell ∈ m, cell.1 < 64 ∧ cell.2 ≠ Memory.unlisted

/-- The byte the cells give an index. -/
def Memory.lookupCell : Memory → Nat → Byte
  | [], _ => Memory.unlisted
  | (k, b) :: m, a => if k = a then b else Memory.lookupCell m a

/-- The cells with one more in its place by index. -/
def Memory.insertCell : Memory → Nat → Byte → Memory
  | [], a, b => [(a, b)]
  | (k, c) :: m, a, b =>
    if a < k then (a, b) :: (k, c) :: m else (k, c) :: Memory.insertCell m a b

/-- `BUF[a]`, with no side effect (R8, `20_memory.md` R33). An index is below 64 by its type. -/
def Memory.read (m : Memory) (a : Fin 64) : Byte := m.lookupCell a.val

/-- `BUF[a] <- b`, one byte (`MemWrite(a, 1, b)` of R8). -/
def Memory.write (m : Memory) (a : Fin 64) (b : Byte) : Memory :=
  let others := m.filter (fun cell => cell.1 != a.val)
  if b = Memory.unlisted then others else Memory.insertCell others a.val b

/-- `MemRead(addr, n)`: the `n` bytes from `addr` as an unsigned little-endian number (R8). It is used
where `addr + n <= 64`; an index does not wrap. -/
def Memory.readLE (m : Memory) (addr : Nat) : Nat → Nat
  | 0 => 0
  | n + 1 => m.readLE addr n + (m.lookupCell (addr + n)).toNat * 2 ^ (8 * n)

/-- The buffer as a block, `BUF[0..63]`: what ABSORB gives COMPRESS (`41_update.md` R91). -/
def Memory.block (m : Memory) : Block := Vector.ofFn m.read

/-- The meaningful bytes `BUF[0..FILL-1]` in order (`10_state.md` R13). -/
def Context.pending (c : Context) : List Byte := (List.finRange 64).take c.fill.val |>.map c.buf.read

/-! ## Responses and exceptions -/

/-- `respond(status, dout)`: one response, behind those the issuer has not taken
(`30_encoding.md` R59). -/
def respond (status : Status) (dout : Option Dout) (s : State) : State :=
  { s with rsp := s.rsp ++ [⟨status, dout⟩] }

/-- Taking an exception (`raise` of `00_scope.md` R8, `60_exceptions.md` R129): nothing of the state is
written, nothing is saved, no mode changes and control goes nowhere; the response carries the status
code only (R125) and the block is ready for the next command. There is no return from an exception:
"nothing to return from" (R133). -/
def raise (e : Exception) (s : State) : State := respond e.status none s

/-- The state with another context: the channels stay as they are. -/
def State.withCtx (s : State) (c : Context) : State := { s with ctx := c }

/-- The context with other accumulator words: what COMPRESS's callers write back
(`40_block_transform.md` R70). -/
def Context.withAcc (c : Context) (acc : Accumulator) : Context := { c with acc := acc }

/-- The context with another fill length (`10_state.md` R14). -/
def Context.withFill (c : Context) (n : Fin 64) : Context := { c with fill := n }

/-- `BUF[FILL] <- x` (`41_update.md` R91). -/
def Context.storeByte (c : Context) (x : Byte) : Context := { c with buf := c.buf.write c.fill x }

/-! ## Taking a command from the channels (`20_memory.md` R34, R35; `30_encoding.md` R58, R60) -/

/-- What the channels offer the block's next transition. -/
inductive Fetched
  /-- No header word waits on `CMD` (log 2). -/
  | idle
  /-- The oldest header word is an UPDATE whose payload is not all on `DIN` yet (R155, log 3). -/
  | waiting
  /-- The oldest header word is reserved; the state after it has been taken (R57). -/
  | illegal (s : State)
  /-- A whole command; the state after its header word and its payload have been taken. -/
  | command (i : Instr) (s : State)
deriving DecidableEq, Repr

/-- Take the oldest command: its header word from `CMD` and exactly its payload from `DIN` (R60). A
reserved word takes nothing from `DIN` (R57); a command that is not whole takes nothing (log 3). -/
def fetch (s : State) : Fetched :=
  match s.cmd with
  | [] => .idle
  | cw :: cmd' =>
    match decode cw s.din with
    | .command i din' => .command i { s with cmd := cmd', din := din' }
    | .illegal => .illegal { s with cmd := cmd' }
    | .payloadShort => .waiting

/-! ## The issuer's side (`70_reset_and_hazards.md` R150 to R152, R159; log 1, log 13) -/

/-- Hardware reset, at any time: `S0`, the channels emptied, no response (R150, R152). -/
def hardwareReset (_ : State) : State := State.reset

/-- The issuer sends a header word (R159). -/
def sendHeader (cw : Word) (s : State) : State := { s with cmd := s.cmd ++ [cw] }

/-- The issuer sends payload bytes (R159). -/
def sendPayload (bytes : List Byte) (s : State) : State := { s with din := s.din ++ bytes }

/-- The issuer sends a whole command: its header word and its payload (`30_encoding.md` R51). -/
def sendCommand (i : Instr) (s : State) : State :=
  sendPayload (encode i).2 (sendHeader (encode i).1 s)

/-- The issuer takes the oldest response (R159); a response already taken no longer changes (R158). -/
def takeResponse (s : State) : Option Response × State :=
  (s.rsp.head?, { s with rsp := s.rsp.tail })

end Sys2Proof.Machine
end

