-- ==== Sys2Proof/Machine/Control.lean ====
section
/-! DEFINITION. RESET (`43_reset_and_facade.md` R115). -/

namespace Sys2Proof.Machine

/-- RESET: the context becomes `S0` whatever it was, in either phase, and the response is OK (R115). -/
def execReset (s : State) : Host.Outcome State Fault Refusal :=
  .next (respond .ok none (s.withCtx Context.initial))

end Sys2Proof.Machine
end

