-- ==== Sys2Proof/Machine/Compress.lean ====
section
/-! DEFINITION. The block transform COMPRESS (`40_block_transform.md` R70 to R86): 64 steps in four
rounds over sixteen little-endian message words, then the feed-forward. It reads and writes no
architectural state and cannot fail (R70, R85). Its numbers and formulas are the spec's GK2 to GK6
(log 10). -/

namespace Sys2Proof.Machine

/-- The round of step `i`: `i div 16`, 0..3 (R73). -/
def roundOf (i : Nat) : Fin 4 := Fin.ofNat 4 (i / 16)

/-- Round 1 (R74): a bitwise select with `b` the selector, and not the majority function
(`90_conflicts.md` C1). -/
def mixF (b c d : Word) : Word := (b &&& c) ||| (~~~b &&& d)

/-- Round 2 (R75): a bitwise select with `d` the selector. -/
def mixG (b c d : Word) : Word := (b &&& d) ||| (c &&& ~~~d)

/-- Round 3 (R76). -/
def mixH (b c d : Word) : Word := b ^^^ c ^^^ d

/-- Round 4 (R77). -/
def mixI (b c d : Word) : Word := c ^^^ (b ||| ~~~d)

/-- `MIX(r, b, c, d)` (R74 to R77). -/
def mix (r : Fin 4) (b c d : Word) : Word :=
  match r with
  | 0 => mixF b c d
  | 1 => mixG b c d
  | 2 => mixH b c d
  | 3 => mixI b c d

/-- `K(i)`: which message word step `i` uses (R78). -/
def wordIndex (i : Nat) : Fin 16 :=
  match roundOf i with
  | 0 => Fin.ofNat 16 i
  | 1 => Fin.ofNat 16 (5 * i + 1)
  | 2 => Fin.ofNat 16 (3 * i + 5)
  | 3 => Fin.ofNat 16 (7 * i)

/-- The four rotation amounts of a round (R79). -/
def rotationRow (r : Fin 4) : Vector Nat 4 :=
  match r with
  | 0 => #v[7, 12, 17, 22]
  | 1 => #v[5, 9, 14, 20]
  | 2 => #v[4, 11, 16, 23]
  | 3 => #v[6, 10, 15, 21]

/-- `S[i]` (R79): the round's four amounts in a cycle. -/
def rotationAmount (i : Nat) : Nat := (rotationRow (roundOf i))[i % 4]'(Nat.mod_lt i (by decide))

/-- The additive constants of round 1, `T[0..15]` (R84). -/
def constantsRound1 : Vector Word 16 :=
  #v[0xD76AA478, 0xE8C7B756, 0x242070DB, 0xC1BDCEEE,
     0xF57C0FAF, 0x4787C62A, 0xA8304613, 0xFD469501,
     0x698098D8, 0x8B44F7AF, 0xFFFF5BB1, 0x895CD7BE,
     0x6B901122, 0xFD987193, 0xA679438E, 0x49B40821]

/-- The additive constants of round 2, `T[16..31]` (R84). -/
def constantsRound2 : Vector Word 16 :=
  #v[0xF61E2562, 0xC040B340, 0x265E5A51, 0xE9B6C7AA,
     0xD62F105D, 0x02441453, 0xD8A1E681, 0xE7D3FBC8,
     0x21E1CDE6, 0xC33707D6, 0xF4D50D87, 0x455A14ED,
     0xA9E3E905, 0xFCEFA3F8, 0x676F02D9, 0x8D2A4C8A]

/-- The additive constants of round 3, `T[32..47]` (R84). -/
def constantsRound3 : Vector Word 16 :=
  #v[0xFFFA3942, 0x8771F681, 0x6D9D6122, 0xFDE5380C,
     0xA4BEEA44, 0x4BDECFA9, 0xF6BB4B60, 0xBEBFBC70,
     0x289B7EC6, 0xEAA127FA, 0xD4EF3085, 0x04881D05,
     0xD9D4D039, 0xE6DB99E5, 0x1FA27CF8, 0xC4AC5665]

/-- The additive constants of round 4, `T[48..63]` (R84). -/
def constantsRound4 : Vector Word 16 :=
  #v[0xF4292244, 0x432AFF97, 0xAB9423A7, 0xFC93A039,
     0x655B59C3, 0x8F0CCC92, 0xFFEFF47D, 0x85845DD1,
     0x6FA87E4F, 0xFE2CE6E0, 0xA3014314, 0x4E0811A1,
     0xF7537E82, 0xBD3AF235, 0x2AD7D2BB, 0xEB86D391]

/-- The sixteen additive constants of a round (R80, R84). -/
def constantRow (r : Fin 4) : Vector Word 16 :=
  match r with
  | 0 => constantsRound1
  | 1 => constantsRound2
  | 2 => constantsRound3
  | 3 => constantsRound4

/-- `T[i]` (R80). -/
def additiveConstant (i : Nat) : Word := (constantRow (roundOf i))[i % 16]'(Nat.mod_lt i (by decide))

/-- `M[k] = LE32(blk[4k], blk[4k+1], blk[4k+2], blk[4k+3])` (R71). -/
def messageWord (blk : Block) (k : Fin 16) : Word :=
  le32 blk[4 * k.val] blk[4 * k.val + 1] blk[4 * k.val + 2] blk[4 * k.val + 3]

/-- Step `i` on the working variables, with the roles moved one on (R73, R81). -/
def mixStep (blk : Block) (i : Nat) (w : Accumulator) : Accumulator :=
  let f := mix (roundOf i) w.b w.c w.d
  let t := w.a + f + messageWord blk (wordIndex i) + additiveConstant i
  { a := w.d, b := w.b + rotl32 t (rotationAmount i), c := w.b, d := w.c }

/-- The working variables after the first `n` steps (R72, R73). -/
def mixSteps (blk : Block) (acc : Accumulator) : Nat → Accumulator
  | 0 => acc
  | n + 1 => mixStep blk n (mixSteps blk acc n)

/-- The sum of R82, word by word. -/
def Accumulator.add32 (x y : Accumulator) : Accumulator :=
  { a := x.a + y.a, b := x.b + y.b, c := x.c + y.c, d := x.d + y.d }

/-- COMPRESS: 64 steps, then the feed-forward (R70, R82). Irreducible, so that no proof about commands
unfolds 64 steps on variables by accident; `rw [compress]` opens it. -/
@[irreducible] def compress (acc : Accumulator) (blk : Block) : Accumulator := acc.add32 (mixSteps blk acc 64)

end Sys2Proof.Machine
end

