-- ==== Sys2Proof/Machine/Digest.lean ====
section
/-! DEFINITION. DIGEST, FINALIZE with its padding, and the digest serialization (`42_digest.md` R100
to R109). The padding is built in a scratch block, so `BUF`, `FILL` and `COUNT` stay as they are
(R107, the spec's D9), and there is no digest register (`10_state.md` R21, D10; log 9). -/

namespace Sys2Proof.Machine

/-- The marker byte directly after the buffered data (`PAD_MARKER`, R101 step 1). -/
def padMarker : Byte := 0x80

/-- `L = (COUNT * 8) mod 2^64`: the message length in bits (R104). -/
def bitLength (count : Word64) : Word64 := count * 8

/-- The last eight bytes of the final block: `L` as two little-endian words, the low-order word first
(R104). -/
def lengthTail (count : Word64) : Vector Byte 8 :=
  leBytes32 ((bitLength count).extractLsb' 0 32) ++ leBytes32 ((bitLength count).extractLsb' 32 32)

/-- The padded data without the tail, R101's `P` after step 1: the buffered bytes, the marker, zeros. -/
def dataByte (c : Context) (j : Fin 64) : Byte :=
  if j.val < c.fill.val then c.buf.read j
  else if j.val = c.fill.val then padMarker
  else 0x00

/-- Whether the marker leaves no room for the tail, so that there are two final blocks: `FILL >= 56`
(R101 step 2, R102). -/
def needsExtraBlock (c : Context) : Bool := decide (56 ≤ c.fill.val)

/-- The first of two final blocks: data, marker, zeros to the end (R101 step 2). -/
def extraBlock (c : Context) : Block := Vector.ofFn (dataByte c)

/-- The last block: data, marker and zeros, or only zeros behind an extra block, and the length tail
in bytes 56..63 (R101 steps 3 and 4). -/
def lastBlock (c : Context) : Block :=
  Vector.ofFn fun j =>
    if h : 56 ≤ j.val then (lengthTail c.count)[j.val - 56]
    else if needsExtraBlock c then 0x00
    else dataByte c j

/-- The accumulator after FINALIZE: COMPRESS of the last block, after COMPRESS of the extra block where
there is one (R101 steps 2 and 5, R102). -/
def finalAccumulator (c : Context) : Accumulator :=
  let acc := if needsExtraBlock c then compress c.acc (extraBlock c) else c.acc
  compress acc (lastBlock c)

/-- FINALIZE (R101): it writes the accumulator and `FIN`, nothing else (R107). -/
def finalize (c : Context) : Context := (c.withAcc (finalAccumulator c)).setFinished

/-- The digest: `A, B, C, D` in order, each little-endian (R105). -/
def digestBytes (acc : Accumulator) : Digest :=
  leBytes32 acc.a ++ leBytes32 acc.b ++ leBytes32 acc.c ++ leBytes32 acc.d

/-- DIGEST (R100): FINALIZE in phase ABSORBING, nothing in phase FINISHED, and the digest in the
response either way (R106). It cannot fail (R108). -/
def execDigest (s : State) : Host.Outcome State Fault Refusal :=
  let c := if s.ctx.fin then s.ctx else finalize s.ctx
  .next (respond .ok (some (doutOf (digestBytes c.acc))) (s.withCtx c))

end Sys2Proof.Machine
end

