-- ==== Sys2Proof/Machine/Update.lean ====
section
/-! DEFINITION. UPDATE and its one-byte operation ABSORB (`41_update.md` R90 to R95). -/

namespace Sys2Proof.Machine

/-- `(A, B, C, D) <- COMPRESS((A, B, C, D), BUF[0..63])` and `FILL <- 0` (R91). -/
def compressBuffer (c : Context) : Context :=
  (c.withAcc (compress c.acc c.buf.block)).withFill 0

/-- ABSORB (R91): the byte goes to `BUF[FILL]`; the 64th byte of a block runs COMPRESS at once. -/
def absorb (c : Context) (x : Byte) : Context :=
  if c.fill = 63 then compressBuffer (c.storeByte x)
  else (c.storeByte x).withFill (c.fill + 1)

/-- ABSORB for every payload byte, in payload order (R90). -/
def absorbAll (c : Context) (data : List Byte) : Context := data.foldl absorb c

/-- `COUNT <- (COUNT + zext_64(len)) mod 2^64` (R93). -/
def advanceCount (len : Nat) (c : Context) : Context := { c with count := c.count + zext64 len }

/-- UPDATE (R90), with the checks in the order of R94 and `60_exceptions.md` R132: an empty payload is
a no-op in both phases, a non-empty one in phase FINISHED raises AlreadyFinished. -/
def execUpdate (data : List Byte) (s : State) : Host.Outcome State Fault Refusal :=
  if data.length = 0 then .next (respond .ok none s)
  else if s.ctx.fin then .next (raise .alreadyFinished s)
  else .next (respond .ok none (s.withCtx (advanceCount data.length (absorbAll s.ctx data))))

end Sys2Proof.Machine
end

