-- ==== Sys2Proof/Machine/Dispatch.lean ====
section
/-! DEFINITION. One arm per command: its meaning (`30_encoding.md` R50). -/

namespace Sys2Proof.Machine

def exec (i : Instr) (s : State) : Host.Outcome State Fault Refusal :=
  match i with
  | .reset => Sys2Proof.Machine.execReset s
  | .update data => Sys2Proof.Machine.execUpdate data s
  | .digest => Sys2Proof.Machine.execDigest s

end Sys2Proof.Machine
end

