-- ==== Sys2Proof/Machine/Step.lean ====
section
/-! DEFINITION. One step of the machine: one command, one atomic transition (`20_memory.md` R34, R35),
and how an opcode-table word is placed where the next step takes its command. -/

namespace Sys2Proof.Machine

/-- Take the oldest command and execute it. A reserved header word raises IllegalCommand
(`30_encoding.md` R57); with no whole command on the channels the block holds its state
(`70_reset_and_hazards.md` R155; log 2, log 3). -/
def step (s : State) : Host.Outcome State Fault Refusal :=
  match fetch s with
  | .idle => .next s
  | .waiting => .next s
  | .illegal s' => .next (raise .illegalCommand s')
  | .command i s' => exec i s'

/-- The header word `w` in front of `CMD`, and as many zero bytes as it asks for in front of `DIN`, so
that the next step takes exactly this command (log 6). -/
def State.withFetchWord (s : State) (nbits w : Nat) : State :=
  let cw : Word := BitVec.ofNat 32 (w % 2 ^ nbits)
  { s with cmd := cw :: s.cmd, din := zeroPayload cw ++ s.din }

end Sys2Proof.Machine
end

