-- ==== Sys2Proof/Machine/Events.lean ====
section
/-! DEFINITION. Everything that can happen to one instance between two command transitions
(`70_reset_and_hazards.md` R159), so that claims can speak of every event and not of steps alone. -/

namespace Sys2Proof.Machine

/-- An event at one instance (R159; log 1, log 13). -/
inductive Event
  /-- Hardware reset (R150, R152). -/
  | hardwareReset
  /-- The issuer sends a header word, legal or reserved. -/
  | header (cw : Word)
  /-- The issuer sends payload bytes. -/
  | payload (bytes : List Byte)
  /-- The issuer takes the oldest response. -/
  | takeResponse
  /-- The block takes and executes a command. -/
  | command
deriving DecidableEq, Repr

/-- The state after an event. -/
def onEvent (e : Event) (s : State) : Host.Outcome State Fault Refusal :=
  match e with
  | .hardwareReset => .next (hardwareReset s)
  | .header cw => .next (sendHeader cw s)
  | .payload bytes => .next (sendPayload bytes s)
  | .takeResponse => .next (takeResponse s).2
  | .command => step s

/-- The events at one instance one after another, oldest first. -/
def runEvents : List Event → State → Host.Outcome State Fault Refusal
  | [], s => .next s
  | e :: es, s =>
    match onEvent e s with
    | .next t => runEvents es t
    | .fault r => .fault r
    | .refused r => .refused r

end Sys2Proof.Machine
end

