-- ==== Sys2Proof/Machine/Instances.lean ====
section
/-! DEFINITION. Several instances of the block side by side (`20_memory.md` R38, `60_exceptions.md`
R136). `N_INSTANCES` is the argument `n`, the one parameter the spec leaves open (D14). Instances that
run in parallel are an arbitrary interleaving of their events (log 14). -/

namespace Sys2Proof.Machine

/-- `n` instances, each with its own context and its own channels. -/
abbrev System (n : Nat) := Vector State n

/-- An event at instance `k`: its own hardware reset, what its issuer sends or takes, or its next command
(R136, `70_reset_and_hazards.md` R159). The other instances keep their states. -/
def System.onEvent {n : Nat} (k : Fin n) (e : Event) (sys : System n) :
    Host.Outcome (System n) Fault Refusal :=
  match Machine.onEvent e sys[k] with
  | .next t => .next (sys.set k t)
  | .fault r => .fault r
  | .refused r => .refused r

/-- The events of an interleaving, each with the instance it happens at, oldest first. -/
def System.runEvents {n : Nat} :
    List (Fin n × Event) → System n → Host.Outcome (System n) Fault Refusal
  | [], sys => .next sys
  | (k, e) :: order, sys =>
    match System.onEvent k e sys with
    | .next sys' => System.runEvents order sys'
    | .fault r => .fault r
    | .refused r => .refused r

/-- One command of instance `k`. -/
def System.step {n : Nat} (k : Fin n) (sys : System n) : Host.Outcome (System n) Fault Refusal :=
  System.onEvent k .command sys

/-- The commands of an interleaving: which instance moves next, oldest first. -/
def System.run {n : Nat} (order : List (Fin n)) (sys : System n) :
    Host.Outcome (System n) Fault Refusal :=
  System.runEvents (order.map fun k => (k, .command)) sys

/-- Hardware reset of instance `k` alone: each instance starts by its own (R136, R150). -/
def System.hardwareReset {n : Nat} (k : Fin n) (sys : System n) : System n :=
  sys.set k (Machine.hardwareReset sys[k])

/-- Every instance after its own hardware reset (R136). -/
def System.reset (n : Nat) : System n := Vector.replicate n State.reset

end Sys2Proof.Machine
end

