-- ==== Sys2Proof/Machine/Program.lean ====
section
/-! DEFINITION. Runs of command lists (`20_memory.md` R35, `70_reset_and_hazards.md` R160), the
pseudo-instructions (`30_encoding.md` R62) and sending a list on the channels. -/

namespace Sys2Proof.Machine

/-- A run: the commands one after another, the left fold of their transitions (R35, R160). -/
def runCommands : List Instr → State → Host.Outcome State Fault Refusal
  | [], s => .next s
  | i :: p, s =>
    match exec i s with
    | .next t => runCommands p t
    | .fault r => .fault r
    | .refused r => .refused r

/-- The issuer sends a whole list of commands before the block takes the first (R35, log 1). -/
def sendCommands (p : List Instr) (s : State) : State := p.foldl (fun t i => sendCommand i t) s

/-- A payload cut in order into pieces of at most `size` bytes; the empty payload is one empty piece.
`fuel` is a bound on the number of pieces. DESIGN CHOICE (log 19): R62 asks only for pieces of at most
`MAX_BURST` bytes that cover the payload in order; here every piece but the last has exactly `size`
bytes, which fixes how many there are and so how many responses they answer. -/
def splitBursts (size : Nat) : Nat → List Byte → List (List Byte)
  | 0, _ => []
  | fuel + 1, data =>
    if data.length ≤ size then [data]
    else data.take size :: splitBursts size fuel (data.drop size)

/-- `UPDATE <payload>` of any length: consecutive UPDATEs of at most `MAX_BURST` bytes (R62, R55),
cut as log 19 says. -/
def updateBursts (data : List Byte) : List Instr :=
  (splitBursts Config.maxBurst (data.length + 1) data).map .update

/-- `HASH <payload>`: RESET, UPDATE, DIGEST on one instance (R62, `43_reset_and_facade.md` R118). -/
def hashCommands (data : List Byte) : List Instr := .reset :: updateBursts data ++ [.digest]

end Sys2Proof.Machine
end

