-- ==== Sys2Proof/Machine/Reference.lean ====
section
/-! DEFINITION. Second descriptions of the same computation that the spec gives beside its pseudocode,
and that claims compare the machine with: the padded message as a whole (`42_digest.md` R103), the
bulk form of UPDATE (`41_update.md` R92), and the transform that renames registers and moves no data
(`40_block_transform.md` R81). The step uses none of them. -/

namespace Sys2Proof.Machine

/-- The block of the first 64 bytes of a list. -/
def blockOfList (l : List Byte) : Block := Vector.ofFn fun j => l.getD j.val 0x00

/-- The first `n` 64-byte pieces of a byte string, in order. -/
def pieces : Nat → List Byte → List Block
  | 0, _ => []
  | n + 1, l => blockOfList l :: pieces n (l.drop 64)

/-- COMPRESS chained over the whole 64-byte pieces of a byte string (`40_block_transform.md` R86). -/
def compressAll (acc : Accumulator) (l : List Byte) : Accumulator :=
  (pieces (l.length / 64) l).foldl compress acc

/-- `z = (55 - COUNT) mod 64`, 0..63 (R103). -/
def padZeros (len : Nat) : Nat := ((55 - (len : Int)) % 64).toNat

/-- `msg ++ 0x80 ++ zeros(z) ++ tail` (R103). -/
def paddedMessage (msg : List Byte) : List Byte :=
  msg ++ [0x80] ++ List.replicate (padZeros msg.length) 0x00 ++ (lengthTail (zext64 msg.length)).toList

/-- The digest of a message as a function of the message alone (R103, R105). -/
def digestOf (msg : List Byte) : Digest :=
  digestBytes (compressAll initialAccumulator (paddedMessage msg))

/-- Step `i` in the form that overwrites one register (R81). -/
def registerStep (blk : Block) (i : Nat) (w : Accumulator) : Accumulator :=
  let new (x y z v : Word) : Word :=
    y + rotl32 (x + mix (roundOf i) y z v + messageWord blk (wordIndex i) + additiveConstant i)
      (rotationAmount i)
  match Fin.ofNat 4 i with
  | 0 => { w with a := new w.a w.b w.c w.d }
  | 1 => { w with d := new w.d w.a w.b w.c }
  | 2 => { w with c := new w.c w.d w.a w.b }
  | 3 => { w with b := new w.b w.c w.d w.a }

/-- The registers after the first `n` steps of that form. -/
def registerSteps (blk : Block) (acc : Accumulator) : Nat → Accumulator
  | 0 => acc
  | n + 1 => registerStep blk n (registerSteps blk acc n)

/-- What each command answers in phase FINISHED while no RESET comes (`43_reset_and_facade.md` R120):
DIGEST the digest of the unchanged accumulator, an empty UPDATE OK, a non-empty one
ALREADY_FINISHED. RESET answers OK and leaves the phase. -/
def finishedResponse (acc : Accumulator) : Instr → Response
  | .reset => ⟨.ok, none⟩
  | .update [] => ⟨.ok, none⟩
  | .update (_ :: _) => ⟨.alreadyFinished, none⟩
  | .digest => ⟨.ok, some (doutOf (digestBytes acc))⟩

/-- The reserved header words as R57 lists them (`30_encoding.md`). -/
abbrev ReservedWord (cw : Word) : Prop :=
  opField cw = 0b11 ∨ (opField cw = 0b00 ∧ argField cw ≠ 0) ∨ (opField cw = 0b10 ∧ argField cw ≠ 0)

end Sys2Proof.Machine
end

