-- ==== Sys2Proof/Safety.lean ====
section
/-! DEFINITION. The terms claims are stated in: which states are well formed, and which contexts differ
only in bytes that carry no meaning. Nothing stops a run of this block (log 17), so safety is that
every step answers a next state and keeps it well formed. -/

namespace Sys2Proof.Machine

/-- A context as commands from a reset leave it: the buffer in canonical form (log 7), and
`FILL = COUNT mod 64` (`10_state.md` R24). -/
abbrev Context.wf (c : Context) : Prop := c.buf.wf ∧ c.fill.val = c.count.toNat % 64

/-- A response as the block makes them: a digest only with status OK (`30_encoding.md` R59). -/
abbrev Response.wf (r : Response) : Prop := r.status ≠ .ok → r.dout = none

/-- The invariant of the machine: a well-formed context, and well-formed responses on `RSP`. -/
abbrev State.wf (s : State) : Prop := s.ctx.wf ∧ ∀ r ∈ s.rsp, r.wf

/-- Two contexts that differ at most in the don't-care bytes `BUF[FILL..63]` (`10_state.md` R13). -/
structure Context.Agree (c₁ c₂ : Context) : Prop where
  acc : c₁.acc = c₂.acc
  count : c₁.count = c₂.count
  fill : c₁.fill = c₂.fill
  fin : c₁.fin = c₂.fin
  buf : ∀ j : Fin 64, j < c₁.fill → c₁.buf.read j = c₂.buf.read j

end Sys2Proof.Machine
end

