-- ==== Sys2Proof/Certificates/Slice0/Obligations.lean ====
section
/-! DEFINITION. The statements for the provers. Each names the rule of spec/ it formalises; where a
statement rests on a choice of the model or on an inference of the spec, its docstring says so. -/

open Sys2Proof Sys2Proof.Machine

/-! ## Encoding and decoding -/

/-- Header words written out from `95_test_vectors.md` section 7 decode as its table says
(a sanity statement about fixed words). -/
def Obligations.TableWordsDecode : Prop :=
  decodeHeader 0x00000000 = .reset ∧ decodeHeader 0x00000001 = .illegal ∧
  decodeHeader 0x3FFFFFFF = .illegal ∧ decodeHeader 0x40000000 = .update 0 ∧
  decodeHeader 0x40000003 = .update 3 ∧ decodeHeader 0x7FFFFFFF = .update 0x3FFFFFFF ∧
  decodeHeader 0x80000000 = .digest ∧ decodeHeader 0x80000001 = .illegal ∧
  decodeHeader 0xC0000000 = .illegal ∧ decodeHeader 0xFFFFFFFF = .illegal

/-- R56: a header word selects a row of the opcode map when `(CW & mask) = match`, and decodes to the
command of the row it selects; the three rows are disjoint, and `op = 11` selects none: it is
reserved. -/
def Obligations.HeaderWordSelectsItsRow : Prop :=
  ∀ cw : Word,
    (cw &&& 0xFFFFFFFF = 0x00000000 ↔ decodeHeader cw = .reset) ∧
    (cw &&& 0xC0000000 = 0x40000000 ↔ decodeHeader cw = .update (argField cw)) ∧
    (cw &&& 0xFFFFFFFF = 0x80000000 ↔ decodeHeader cw = .digest) ∧
    (opField cw = 0b11 → decodeHeader cw = .illegal) ∧
    ¬(cw &&& 0xFFFFFFFF = 0x00000000 ∧ cw &&& 0xC0000000 = 0x40000000) ∧
    ¬(cw &&& 0xFFFFFFFF = 0x00000000 ∧ cw &&& 0xFFFFFFFF = 0x80000000) ∧
    ¬(cw &&& 0xC0000000 = 0x40000000 ∧ cw &&& 0xFFFFFFFF = 0x80000000)

/-- Headline: every well-formed command survives encoding, with every payload the encoding admits and
whatever bytes wait behind it on `DIN` (the payload is part of the command, log 5). -/
def Obligations.DecodeOfEncodeIsTheCommand : Prop :=
  ∀ (i : Instr) (rest : List Byte), i.wellFormed = true →
    decode (encode i).1 ((encode i).2 ++ rest) = .command i rest

/-- Each header word and payload has one meaning: what decodes to a command is that command's encoding,
and the command is well formed. -/
def Obligations.DecodedCommandEncodesBack : Prop :=
  ∀ (cw : Word) (din : List Byte) (i : Instr) (rest : List Byte),
    decode cw din = .command i rest →
      i.wellFormed = true ∧ (encode i).1 = cw ∧ (encode i).2 ++ rest = din

/-- The reserved header words are those with `op = 11`, those with `op = 00` and a non-zero
argument and those with `op = 10` and a non-zero argument. Such a word raises IllegalCommand: no state
is written, nothing is taken from `DIN`, and the response is status ILLEGAL_COMMAND. No other word
does (`30_encoding.md` R57, `60_exceptions.md` R127; answering it as a step and not as a refusal is
log 4). -/
def Obligations.ReservedWordRaisesIllegalCommand : Prop :=
  ∀ (s : State) (cw : Word) (cmd' : List Word), s.cmd = cw :: cmd' →
    (decodeHeader cw = .illegal ↔
      opField cw = 0b11 ∨ (opField cw = 0b00 ∧ argField cw ≠ 0) ∨
        (opField cw = 0b10 ∧ argField cw ≠ 0)) ∧
    (opField cw = 0b11 ∨ (opField cw = 0b00 ∧ argField cw ≠ 0) ∨
        (opField cw = 0b10 ∧ argField cw ≠ 0) →
      step s = .next { ctx := s.ctx, cmd := cmd', din := s.din,
                       rsp := s.rsp ++ [⟨.illegalCommand, none⟩] })

/-! ## The step -/

/-- When the oldest header word and the bytes on `DIN` decode to a command, the step is that command
executed on the state from which the header word and the payload have been taken. -/
def Obligations.StepRunsDecodedCommand : Prop :=
  ∀ (s : State) (cw : Word) (cmd' : List Word) (i : Instr) (din' : List Byte),
    s.cmd = cw :: cmd' → decode cw s.din = .command i din' →
      step s = exec i { ctx := s.ctx, cmd := cmd', din := din', rsp := s.rsp }

/-- With no header word on `CMD` a step holds the state: "between commands the block simply holds its
state" (`60_exceptions.md` section 9; the model's idle step is log 2). -/
def Obligations.IdleBlockHoldsItsState : Prop :=
  ∀ s : State, s.cmd = [] → step s = .next s

/-- An UPDATE whose payload is short waits, with no state changed and no later command executed;
more header words do not help; it runs with exactly `len` bytes once they are there, and the surplus
stays for the next UPDATE; hardware reset lifts the wait (`70_reset_and_hazards.md` R155; a wait as a
step that holds the state is log 3). -/
def Obligations.ShortUpdateWaitsForItsPayload : Prop :=
  ∀ (s : State) (cw : Word) (cmd' : List Word) (len : BitVec 30),
    s.cmd = cw :: cmd' → decodeHeader cw = .update len → s.din.length < len.toNat →
      step s = .next s ∧
      (∀ later : Word, step (sendHeader later s) = .next (sendHeader later s)) ∧
      (∀ bytes : List Byte, s.din.length + bytes.length < len.toNat →
        step (sendPayload bytes s) = .next (sendPayload bytes s)) ∧
      (∀ bytes : List Byte, len.toNat ≤ s.din.length + bytes.length →
        step (sendPayload bytes s) =
          exec (.update ((s.din ++ bytes).take len.toNat))
            { ctx := s.ctx, cmd := cmd', din := (s.din ++ bytes).drop len.toNat, rsp := s.rsp }) ∧
      hardwareReset s = State.reset

/-- A step that finds a whole command or a reserved word takes its header word and exactly its payload
from the channels: for a rejected UPDATE too, and nothing from `DIN` for a reserved word (R57, R60,
R94). -/
def Obligations.StepTakesExactlyItsPayload : Prop :=
  ∀ (s : State) (cw : Word) (cmd' : List Word), s.cmd = cw :: cmd' →
    payloadLength (decodeHeader cw) ≤ s.din.length →
      ∃ t, step s = .next t ∧ t.cmd = cmd' ∧ t.din = s.din.drop (payloadLength (decodeHeader cw))

/-- Every run ends and none is stuck; its result is the list of responses, one per command in
order (`70_reset_and_hazards.md` R157, R160). That a step answers a next state from every state, the idle
and the payload-short ones too, where these rules say nothing, is the model's: nothing stops the machine
(log 17), an idle step holds the state (log 2) and so does one that waits for payload (log 3). -/
def Obligations.EveryRunEndsWithOneResponseEach : Prop :=
  (∀ s : State, ∃ t, step s = .next t) ∧
  ∀ (p : List Instr) (s : State), ∃ (t : State) (rs : List Response),
    runCommands p s = .next t ∧ t.rsp = s.rsp ++ rs ∧ rs.length = p.length

/-! ## RESET and hardware reset -/

/-- R115: RESET completes in every state; the state after it is `S0` whatever the state before, and the
response is OK. The channels `CMD` and `DIN` keep what waits on them. -/
def Obligations.ResetCommandLeavesInitialState : Prop :=
  ∀ s : State, ∃ t, exec .reset s = .next t ∧
    t.ctx.acc.a = 0x67452301 ∧ t.ctx.acc.b = 0xEFCDAB89 ∧
    t.ctx.acc.c = 0x98BADCFE ∧ t.ctx.acc.d = 0x10325476 ∧
    t.ctx.count = 0 ∧ t.ctx.fill = 0 ∧ (∀ j : Fin 64, t.ctx.buf.read j = 0x00) ∧ t.ctx.fin = false ∧
    t.cmd = s.cmd ∧ t.din = s.din ∧ t.rsp = s.rsp ++ [⟨.ok, none⟩]

/-- R150: after hardware reset the state is `S0`, in phase ABSORBING, and the three channels are
empty, whatever was before; no response is produced. -/
def Obligations.HardwareResetLeavesInitialState : Prop :=
  ∀ s : State, hardwareReset s = State.reset ∧
    State.reset.ctx.acc = ⟨0x67452301, 0xEFCDAB89, 0x98BADCFE, 0x10325476⟩ ∧
    State.reset.ctx.count = 0 ∧ State.reset.ctx.fill = 0 ∧
    (∀ j : Fin 64, State.reset.ctx.buf.read j = 0x00) ∧
    State.reset.ctx.fin = false ∧ State.reset.ctx.phase = .absorbing ∧
    State.reset.cmd = [] ∧ State.reset.din = [] ∧ State.reset.rsp = []

/-- R151: for every command list `p`, running `p` after hardware reset and running `p` after any
history followed by RESET give the same responses and the same final state. The differences are
outside: RESET answers OK, hardware reset answers nothing and empties the channels. -/
def Obligations.ResetMakesHistoryIrrelevant : Prop :=
  ∀ (p : List Instr) (s : State), ∃ (c : Context) (rs : List Response),
    runCommands p (hardwareReset s) = .next { ctx := c, cmd := [], din := [], rsp := rs } ∧
    runCommands (.reset :: p) s =
      .next { ctx := c, cmd := s.cmd, din := s.din, rsp := s.rsp ++ [⟨.ok, none⟩] ++ rs }

/-! ## UPDATE -/

/-- R90: UPDATE completes in every state. An empty payload is a no-op in both phases; a non-empty one
in phase FINISHED raises AlreadyFinished with no state written; otherwise every byte is absorbed in
payload order, `COUNT` advances by the length, and the response is OK. -/
def Obligations.UpdateAnswers : Prop :=
  ∀ (data : List Byte) (s : State),
    (data = [] → exec (.update data) s =
      .next { ctx := s.ctx, cmd := s.cmd, din := s.din, rsp := s.rsp ++ [⟨.ok, none⟩] }) ∧
    (data ≠ [] → s.ctx.fin = true → exec (.update data) s =
      .next { ctx := s.ctx, cmd := s.cmd, din := s.din, rsp := s.rsp ++ [⟨.alreadyFinished, none⟩] }) ∧
    (data ≠ [] → s.ctx.fin = false → exec (.update data) s =
      .next { ctx := { acc := (data.foldl absorb s.ctx).acc,
                       count := s.ctx.count + BitVec.ofNat 64 data.length,
                       buf := (data.foldl absorb s.ctx).buf,
                       fill := (data.foldl absorb s.ctx).fill,
                       fin := false },
              cmd := s.cmd, din := s.din, rsp := s.rsp ++ [⟨.ok, none⟩] })

/-- R91: ABSORB writes the byte at index `FILL` of `BUF` and nowhere else; the 64th byte runs COMPRESS
on the whole buffer at once and empties it, any other byte advances `FILL` by one and leaves the
accumulator alone; `COUNT` and `FIN` are not touched. -/
def Obligations.AbsorbStoresOneByte : Prop :=
  ∀ (c : Context) (x : Byte),
    (∀ j : Fin 64, (absorb c x).buf.read j = if j = c.fill then x else c.buf.read j) ∧
    (absorb c x).count = c.count ∧ (absorb c x).fin = c.fin ∧
    (c.fill.val < 63 → (absorb c x).fill.val = c.fill.val + 1 ∧ (absorb c x).acc = c.acc) ∧
    (c.fill.val = 63 → (absorb c x).fill.val = 0 ∧
      (absorb c x).acc =
        compress c.acc (Vector.ofFn fun j : Fin 64 => if j.val = 63 then x else c.buf.read j))

/-- R93: a successful UPDATE adds its payload length to `COUNT` modulo 2^64, silently; a rejected one
adds nothing. -/
def Obligations.UpdateAdvancesCount : Prop :=
  ∀ (data : List Byte) (s : State), ∃ t, exec (.update data) s = .next t ∧
    (s.ctx.fin = false → t.ctx.count.toNat = (s.ctx.count.toNat + data.length) % 2 ^ 64) ∧
    (s.ctx.fin = true → t.ctx.count = s.ctx.count)

/-- The bulk form: in phase ABSORBING an UPDATE chains COMPRESS over the whole 64-byte pieces of the
buffered bytes followed by the payload, `floor((FILL + len) / 64)` of them, and leaves the rest in the
buffer (R86, R92, R95; the spec marks the equivalence as derived). -/
def Obligations.UpdateEqualsItsBulkForm : Prop :=
  ∀ (data : List Byte) (s : State), s.ctx.fin = false →
    ∃ t, exec (.update data) s = .next t ∧
      t.ctx.acc = compressAll s.ctx.acc (s.ctx.pending ++ data) ∧
      t.ctx.pending =
        (s.ctx.pending ++ data).drop (64 * ((s.ctx.fill.val + data.length) / 64)) ∧
      t.ctx.fill.val = (s.ctx.fill.val + data.length) % 64

/-- Chunk invariance: cutting a payload into any list of UPDATEs, empty ones among them, gives the same
context as one UPDATE with the whole (R92; the spec marks the equality of states as derived). That the
don't-care bytes `BUF[FILL..63]` agree too is the byte-by-byte form the model follows (log 8); that the
whole may be longer than `MAX_BURST` is log 5. -/
def Obligations.AnyPartitionGivesTheSameContext : Prop :=
  ∀ (chunks : List (List Byte)) (s : State), s.ctx.fin = false →
    ∃ t u, runCommands (chunks.map .update) s = .next t ∧
      exec (.update chunks.flatten) s = .next u ∧
      t.ctx = u.ctx ∧ t.cmd = u.cmd ∧ t.din = u.din

/-- What UPDATE leaves unchanged. The `k`-th payload byte is stored at index `(FILL + k) mod 64` of
`BUF`: every other byte of the buffer reads as before, and each index holds the last byte stored there.
`FIN`, `CMD` and `DIN` are unchanged and earlier responses stay. In phase FINISHED, and for an empty
payload, the whole context is unchanged (`10_state.md` R23, `41_update.md` R91; what the don't-care
bytes hold is log 8). -/
def Obligations.UpdateFrame : Prop :=
  ∀ (data : List Byte) (s t : State), exec (.update data) s = .next t →
    t.ctx.fin = s.ctx.fin ∧ t.cmd = s.cmd ∧ t.din = s.din ∧ s.rsp <+: t.rsp ∧
    (s.ctx.fin = true ∨ data = [] → t.ctx = s.ctx) ∧
    (∀ j : Fin 64, (∀ k < data.length, j.val ≠ (s.ctx.fill.val + k) % 64) →
      t.ctx.buf.read j = s.ctx.buf.read j) ∧
    (s.ctx.fin = false → ∀ (j : Fin 64) (k : Nat) (hk : k < data.length),
      data.length ≤ k + 64 → j.val = (s.ctx.fill.val + k) % 64 → t.ctx.buf.read j = data[k])

/-- UPDATE changes the accumulator only when it crosses a block boundary, in phase ABSORBING
(`10_state.md` R23). -/
def Obligations.AccumulatorNeedsABlockBoundary : Prop :=
  ∀ (data : List Byte) (s : State), ∃ t, exec (.update data) s = .next t ∧
    (s.ctx.fill.val + data.length < 64 ∨ s.ctx.fin = true → t.ctx.acc = s.ctx.acc)

/-! ## The block transform -/

/-- R71: message words are little-endian, and when the block is the buffer `M[k] = MemRead(4k, 4)`. -/
def Obligations.MessageWordsAreLittleEndian : Prop :=
  (∀ (blk : Block) (k : Fin 16),
    (messageWord blk k).toNat =
      blk[4 * k.val].toNat + 2 ^ 8 * blk[4 * k.val + 1].toNat +
        2 ^ 16 * blk[4 * k.val + 2].toNat + 2 ^ 24 * blk[4 * k.val + 3].toNat) ∧
  ∀ (m : Memory) (k : Fin 16), (messageWord m.block k).toNat = m.readLE (4 * k.val) 4

/-- The mixing function of round 1 is the formula `(b & c) | (~b & d)`, a bitwise select with `b`
the selector; its two terms never have a 1 in the same bit, so `|` may equally be `+32` or `^`; it is
not the majority function (`40_block_transform.md` R74; the spec supplies the formula from general
knowledge, GK3, log 10). -/
def Obligations.RoundOneIsASelect : Prop :=
  (∀ b c d : Word, mix 0 b c d = (b &&& c) ||| (~~~b &&& d) ∧
    (∀ j < 32, (mix 0 b c d).getLsbD j = if b.getLsbD j then c.getLsbD j else d.getLsbD j) ∧
    mix 0 b c d = (b &&& c) + (~~~b &&& d) ∧ mix 0 b c d = (b &&& c) ^^^ (~~~b &&& d)) ∧
  ¬∀ b c d : Word, mix 0 b c d = (b &&& c) ||| (b &&& d) ||| (c &&& d)

/-- Round 2 selects with `d`, round 3 is the exclusive or, round 4 is `c ^ (b | ~d)`, the only one of the
four that is not zero at zero (`40_block_transform.md` R75, R76, R77; GK3, log 10). -/
def Obligations.LaterRoundsMix : Prop :=
  (∀ b c d : Word,
    mix 1 b c d = (b &&& d) ||| (c &&& ~~~d) ∧
    (∀ j < 32, (mix 1 b c d).getLsbD j = if d.getLsbD j then b.getLsbD j else c.getLsbD j) ∧
    mix 2 b c d = b ^^^ c ^^^ d ∧
    (∀ j < 32, (mix 2 b c d).getLsbD j = (b.getLsbD j ^^ c.getLsbD j ^^ d.getLsbD j)) ∧
    mix 3 b c d = c ^^^ (b ||| ~~~d) ∧
    (∀ j < 32, (mix 3 b c d).getLsbD j = (c.getLsbD j ^^ (b.getLsbD j || !d.getLsbD j)))) ∧
  ∀ r : Fin 4, mix r 0 0 0 ≠ 0 ↔ r = 3

/-- The tables of the transform: in each round the message words come in the order of R78's lists, a
permutation of all sixteen, the rotation amounts are R79's four in a cycle, all in 4..23, and the
additive constant of step `i` is the literal of row `i` of R84's table (`40_block_transform.md` R78, R79,
R80, R84; the spec supplies the numbers from general knowledge, GK2, GK4 and GK5, log 10). -/
def Obligations.TablesOfTheTransform : Prop :=
  (List.range 16).map (fun i => (wordIndex i).val) =
    [0, 1, 2, 3, 4, 5, 6, 7, 8, 9, 10, 11, 12, 13, 14, 15] ∧
  (List.range 16).map (fun i => (wordIndex (16 + i)).val) =
    [1, 6, 11, 0, 5, 10, 15, 4, 9, 14, 3, 8, 13, 2, 7, 12] ∧
  (List.range 16).map (fun i => (wordIndex (32 + i)).val) =
    [5, 8, 11, 14, 1, 4, 7, 10, 13, 0, 3, 6, 9, 12, 15, 2] ∧
  (List.range 16).map (fun i => (wordIndex (48 + i)).val) =
    [0, 7, 14, 5, 12, 3, 10, 1, 8, 15, 6, 13, 4, 11, 2, 9] ∧
  (∀ (r : Fin 4) (k : Fin 16), ∃ j : Fin 16, wordIndex (16 * r.val + j.val) = k) ∧
  (∀ i < 64, rotationAmount i =
    ([[7, 12, 17, 22], [5, 9, 14, 20], [4, 11, 16, 23], [6, 10, 15, 21]].getD (i / 16) []).getD (i % 4) 0) ∧
  (∀ i < 64, 4 ≤ rotationAmount i ∧ rotationAmount i ≤ 23) ∧
  (∀ i < 64, additiveConstant i =
    (([
     [0xD76AA478, 0xE8C7B756, 0x242070DB, 0xC1BDCEEE,
      0xF57C0FAF, 0x4787C62A, 0xA8304613, 0xFD469501,
      0x698098D8, 0x8B44F7AF, 0xFFFF5BB1, 0x895CD7BE,
      0x6B901122, 0xFD987193, 0xA679438E, 0x49B40821],
     [0xF61E2562, 0xC040B340, 0x265E5A51, 0xE9B6C7AA,
      0xD62F105D, 0x02441453, 0xD8A1E681, 0xE7D3FBC8,
      0x21E1CDE6, 0xC33707D6, 0xF4D50D87, 0x455A14ED,
      0xA9E3E905, 0xFCEFA3F8, 0x676F02D9, 0x8D2A4C8A],
     [0xFFFA3942, 0x8771F681, 0x6D9D6122, 0xFDE5380C,
      0xA4BEEA44, 0x4BDECFA9, 0xF6BB4B60, 0xBEBFBC70,
      0x289B7EC6, 0xEAA127FA, 0xD4EF3085, 0x04881D05,
      0xD9D4D039, 0xE6DB99E5, 0x1FA27CF8, 0xC4AC5665],
     [0xF4292244, 0x432AFF97, 0xAB9423A7, 0xFC93A039,
      0x655B59C3, 0x8F0CCC92, 0xFFEFF47D, 0x85845DD1,
      0x6FA87E4F, 0xFE2CE6E0, 0xA3014314, 0x4E0811A1,
      0xF7537E82, 0xBD3AF235, 0x2AD7D2BB, 0xEB86D391]] : List (List Word)).getD (i / 16) []).getD (i % 16) 0)

/-- The left rotation is circular: for `1 <= s <= 31` the bit at place `j` moves to place
`(j + s) mod 32`, so no bit is lost (`00_scope.md` R8, `40_block_transform.md` R83). -/
def Obligations.RotationIsCircular : Prop :=
  ∀ (x : Word) (s j : Nat), 1 ≤ s → s ≤ 31 → j < 32 →
    (rotl32 x s).getLsbD ((j + s) % 32) = x.getLsbD j

/-- Step `i` of COMPRESS, for `i` in 0..63, with round `i div 16`; the working variables start as the
input words; after 64 steps each output word is the sum of the final variable and the input word
(`40_block_transform.md` R72, R73, R82; that `a` is a term of the sum and `b` is added after the
rotation is GK6, log 10). -/
def Obligations.CompressRunsSixtyFourSteps : Prop :=
  ∀ (blk : Block) (acc : Accumulator),
    mixSteps blk acc 0 = acc ∧
    (∀ i < 64, let w := mixSteps blk acc i
      (roundOf i).val = i / 16 ∧
      mixSteps blk acc (i + 1) =
        { a := w.d,
          b := w.b + rotl32 (w.a + mix (roundOf i) w.b w.c w.d + messageWord blk (wordIndex i) +
            additiveConstant i) (rotationAmount i),
          c := w.b,
          d := w.c }) ∧
    compress acc blk =
      { a := acc.a + (mixSteps blk acc 64).a, b := acc.b + (mixSteps blk acc 64).b,
        c := acc.c + (mixSteps blk acc 64).c, d := acc.d + (mixSteps blk acc 64).d }

/-- The form of the transform that overwrites one register and moves no data agrees with the form that
rotates the roles, after every fourth step and in the result (R81; the spec marks this form as
derived). -/
def Obligations.RegisterFormAgrees : Prop :=
  ∀ (blk : Block) (acc : Accumulator),
    (∀ n : Nat, registerSteps blk acc (4 * n) = mixSteps blk acc (4 * n)) ∧
    compress acc blk = acc.add32 (registerSteps blk acc 64)

/-! ## DIGEST -/

/-- The first DIGEST completes in every state of phase ABSORBING. For `FILL <= 55` COMPRESS
runs once, on the buffered bytes, the marker 0x80, zeros up to byte 56 and the length tail; for
`FILL >= 56` it runs twice, first on the buffered bytes, the marker and zeros, then on 56 zero bytes
and the tail. The accumulator and `FIN` are written, nothing else, and the response is OK with the
digest of the new accumulator (`42_digest.md` R100, R101, R102; that `BUF`, `FILL` and `COUNT` stay is
R107, the spec's decision D9, log 9). -/
def Obligations.FirstDigestFinalizes : Prop :=
  ∀ s : State, s.ctx.fin = false →
    let n := s.ctx.fill.val
    let tail := (lengthTail s.ctx.count).toList
    let acc' : Accumulator :=
      if n ≤ 55 then
        compress s.ctx.acc
          (blockOfList (s.ctx.pending ++ [0x80] ++ List.replicate (55 - n) 0x00 ++ tail))
      else
        compress
          (compress s.ctx.acc
            (blockOfList (s.ctx.pending ++ [0x80] ++ List.replicate (63 - n) 0x00)))
          (blockOfList (List.replicate 56 0x00 ++ tail))
    exec .digest s =
      .next { ctx := { acc := acc', count := s.ctx.count, buf := s.ctx.buf, fill := s.ctx.fill,
                       fin := true },
              cmd := s.cmd, din := s.din,
              rsp := s.rsp ++ [⟨.ok, some (doutOf (digestBytes acc'))⟩] }

/-- R104: the length tail. `L = (COUNT * 8) mod 2^64` fills bytes 56..63 of the last block, least
significant byte first, so `M[14] = L[31:0]` and `M[15] = L[63:32]` in the last COMPRESS. -/
def Obligations.LastBlockEndsInTheBitLength : Prop :=
  ∀ c : Context,
    (bitLength c.count).toNat = c.count.toNat * 8 % 2 ^ 64 ∧
    (∀ (j : Nat) (hj : j < 8),
      (lastBlock c)[56 + j] = (bitLength c.count).extractLsb' (8 * j) 8) ∧
    messageWord (lastBlock c) 14 = (bitLength c.count).extractLsb' 0 32 ∧
    messageWord (lastBlock c) 15 = (bitLength c.count).extractLsb' 32 32

/-- R105: the digest is the accumulator words in order, each little-endian, and lies on the response
channel with `dg[j]` in `dout[8j+7 : 8j]`; read as one number `dout` is `{D, C, B, A}` (D16). -/
def Obligations.DigestSerializesTheAccumulator : Prop :=
  ∀ acc : Accumulator,
    (∀ (j : Nat) (hj : j < 4),
      (digestBytes acc)[j] = acc.a.extractLsb' (8 * j) 8 ∧
      (digestBytes acc)[4 + j] = acc.b.extractLsb' (8 * j) 8 ∧
      (digestBytes acc)[8 + j] = acc.c.extractLsb' (8 * j) 8 ∧
      (digestBytes acc)[12 + j] = acc.d.extractLsb' (8 * j) 8) ∧
    (∀ (j : Nat) (hj : j < 16),
      (doutOf (digestBytes acc)).extractLsb' (8 * j) 8 = (digestBytes acc)[j]) ∧
    doutOf (digestBytes acc) = acc.d ++ acc.c ++ acc.b ++ acc.a

/-- DIGEST leaves `BUF`, `FILL` and `COUNT` exactly as they were, in either phase; `CMD` and `DIN`
too. In phase FINISHED it leaves the whole context. (That the first DIGEST leaves them is R107, the
spec's decision D9, log 9.) -/
def Obligations.DigestFrame : Prop :=
  ∀ s : State, ∃ t, exec .digest s = .next t ∧
    t.ctx.buf = s.ctx.buf ∧ t.ctx.fill = s.ctx.fill ∧ t.ctx.count = s.ctx.count ∧
    t.cmd = s.cmd ∧ t.din = s.din ∧ (s.ctx.fin = true → t.ctx = s.ctx)

/-- R106: once finished, every DIGEST until the next reset returns the same 16 bytes and writes no
state; intervening UPDATEs, empty or rejected, do not change them. A DIGEST in any state starts this. -/
def Obligations.DigestIsRepeatable : Prop :=
  ∀ (p : List Instr) (s : State), (∀ i ∈ p, i ≠ .reset) →
    ∃ t u, exec .digest s = .next t ∧ t.ctx.fin = true ∧
      t.rsp = s.rsp ++ [⟨.ok, some (doutOf (digestBytes t.ctx.acc))⟩] ∧
      runCommands p t = .next u ∧ u.ctx = t.ctx ∧
      u.rsp = t.rsp ++ p.map (finishedResponse t.ctx.acc)

/-- The digest is a function of the message alone. For every partition of a message into
UPDATEs, RESET, the UPDATEs and DIGEST answer, from any state, OK to each and at last the digest of the
padded message `msg ++ 0x80 ++ zeros ++ tail` cut into 64-byte pieces (`42_digest.md` R103, which the
spec marks as derived; `43_reset_and_facade.md` R118). -/
def Obligations.HashIsTheDigestOfThePaddedMessage : Prop :=
  ∀ (chunks : List (List Byte)) (s : State),
    ∃ t, runCommands (.reset :: chunks.map .update ++ [.digest]) s = .next t ∧
      t.ctx.fin = true ∧ t.cmd = s.cmd ∧ t.din = s.din ∧
      t.rsp = s.rsp ++ [⟨.ok, none⟩] ++ List.replicate chunks.length ⟨.ok, none⟩ ++
        [⟨.ok, some (doutOf (digestOf chunks.flatten))⟩]

/-- HASH, whatever the length of its payload and whatever state the instance is in: it never
raises AlreadyFinished, its last response is the digest of the payload (as `digestOf` defines it from
R103), and it leaves the context in phase FINISHED (`43_reset_and_facade.md` R118, which the spec marks
as derived in part). -/
def Obligations.HashNeverFailsAndForgetsTheState : Prop :=
  ∀ (data : List Byte) (s : State), ∃ t rs, runCommands (hashCommands data) s = .next t ∧
    t.rsp = s.rsp ++ rs ++ [⟨.ok, some (doutOf (digestOf data))⟩] ∧
    (∀ r ∈ rs, r = ⟨.ok, none⟩) ∧ t.ctx.phase = .finished

/-! ## Exceptions, responses and the lifecycle -/

/-- R129: a command or a reserved word that answers a status other than OK changes no field of the
context, and nothing but the response is written: the channels stand as the block took the command from
them, and the block goes on with the next command. -/
def Obligations.FailingCommandsChangeNothing : Prop :=
  (∀ (i : Instr) (s t : State) (r : Response), exec i s = .next t → t.rsp = s.rsp ++ [r] →
    r.status ≠ .ok → t = { ctx := s.ctx, cmd := s.cmd, din := s.din, rsp := s.rsp ++ [r] }) ∧
  ∀ (s t : State) (r : Response), step s = .next t → t.rsp = s.rsp ++ [r] →
    r.status ≠ .ok → t.ctx = s.ctx

/-- R126: AlreadyFinished is raised by an UPDATE with a non-empty payload on a context with `FIN = 1`
and by nothing else; it writes no state and its response has status 1. -/
def Obligations.AlreadyFinishedExactly : Prop :=
  ∀ (i : Instr) (s : State), ∃ t r, exec i s = .next t ∧ t.rsp = s.rsp ++ [r] ∧
    (r.status.code = 1 ↔ ∃ data, i = .update data ∧ data ≠ [] ∧ s.ctx.fin = true) ∧
    (r.status.code = 1 → t.ctx = s.ctx ∧ r.dout = none)

/-- The order of the checks on one command, first match wins: a reserved word raises
IllegalCommand; an UPDATE of length 0 is a no-op with status OK whatever `FIN` is; an UPDATE of
positive length with `FIN = 1` raises AlreadyFinished; otherwise the command executes and answers OK.
In all but the last case the context stays. Stated for a command whose payload is on `DIN`
(`60_exceptions.md` R132; that a reserved word is a step answered with ILLEGAL_COMMAND is log 4). -/
def Obligations.ChecksComeInOrder : Prop :=
  ∀ (s : State) (cw : Word) (cmd' : List Word), s.cmd = cw :: cmd' →
    payloadLength (decodeHeader cw) ≤ s.din.length →
      ∃ t r, step s = .next t ∧ t.rsp = s.rsp ++ [r] ∧
        if decodeHeader cw = .illegal then r.status = .illegalCommand ∧ t.ctx = s.ctx
        else if decodeHeader cw = .update 0 then r.status = .ok ∧ t.ctx = s.ctx
        else if opField cw = 0b01 ∧ s.ctx.fin = true then r.status = .alreadyFinished ∧ t.ctx = s.ctx
        else r.status = .ok ∧ ∃ i din', decode cw s.din = .command i din' ∧
          exec i { ctx := s.ctx, cmd := cmd', din := din', rsp := s.rsp } = .next t

/-- Every command answers exactly one response, with a digest if and only if it is DIGEST; the numeric
codes of the statuses are 0, 1 and 2, and code 3 is never produced (`30_encoding.md` R59; that other
responses carry no `dout` is log 12). -/
def Obligations.OneResponsePerCommand : Prop :=
  (∀ (i : Instr) (s : State), ∃ t r, exec i s = .next t ∧ t.rsp = s.rsp ++ [r] ∧
    (r.dout.isSome = true ↔ i = .digest) ∧ (i = .digest → r.status = .ok) ∧
    (i = .reset → r.status = .ok)) ∧
  Status.ok.code = 0 ∧ Status.alreadyFinished.code = 1 ∧ Status.illegalCommand.code = 2 ∧
  ∀ st : Status, st.code ≠ 3

/-- The phase (`10_state.md` R17). Hardware reset or RESET from any phase leads to ABSORBING; UPDATE
leaves the phase unchanged; DIGEST leads to FINISHED from either phase. -/
def Obligations.PhaseTransitions : Prop :=
  (∀ c : Context, (c.phase = .absorbing ↔ c.fin = false) ∧ (c.phase = .finished ↔ c.fin = true)) ∧
  ∀ s : State, (hardwareReset s).ctx.phase = .absorbing ∧
    (∃ t, exec .reset s = .next t ∧ t.ctx.phase = .absorbing) ∧
    (∀ data : List Byte, ∃ t, exec (.update data) s = .next t ∧ t.ctx.phase = s.ctx.phase) ∧
    (∃ t, exec .digest s = .next t ∧ t.ctx.phase = .finished)

/-- `FIN` goes from 1 to 0 only by RESET or hardware reset, and from 0 to 1 only by DIGEST, over every
event at an instance (`10_state.md` R15, `43_reset_and_facade.md` R120). -/
def Obligations.OnlyResetAndDigestMoveThePhase : Prop :=
  ∀ (e : Event) (s t : State), onEvent e s = .next t →
    (s.ctx.fin = true → t.ctx.fin = false →
      e = .hardwareReset ∨ (e = .command ∧ ∃ cmd', s.cmd = 0x00000000 :: cmd')) ∧
    (s.ctx.fin = false → t.ctx.fin = true →
      e = .command ∧ ∃ cmd', s.cmd = 0x80000000 :: cmd')

/-! ## Invariants and whole-machine properties -/

/-- Headline: every event at an instance, from every well-formed state, leaves a well-formed state: the
buffer in canonical form (log 7), `FILL = COUNT mod 64` (`10_state.md` R24, which the spec marks as
derived), and digests only in responses with status OK. -/
def Obligations.EveryEventKeepsWellFormed : Prop :=
  ∀ (e : Event) (s t : State), s.wf → onEvent e s = .next t → t.wf

/-- The state after hardware reset is well formed. -/
def Obligations.ResetStateIsWellFormed : Prop := State.reset.wf

/-- Headline: the bytes `BUF[FILL..63]` are don't-care. Two instances whose contexts differ at most
there give the same responses to every command list and still differ at most there (`10_state.md` R13;
that they hold what was last written is the spec's D15, log 8). -/
def Obligations.DontCareBytesAreNeverSeen : Prop :=
  ∀ (p : List Instr) (s₁ s₂ : State), s₁.ctx.Agree s₂.ctx → s₁.rsp = s₂.rsp →
    ∃ t₁ t₂, runCommands p s₁ = .next t₁ ∧ runCommands p s₂ = .next t₂ ∧
      t₁.rsp = t₂.rsp ∧ t₁.ctx.Agree t₂.ctx

/-- Sending a list of well-formed commands on the channels of an instance that has nothing
pending, and stepping once for each, is the run of the list: the commands take effect one at a time in
the order sent (`20_memory.md` R35; the channels are queues, log 1). -/
def Obligations.ChannelsRunTheCommandList : Prop :=
  ∀ (p : List Instr) (s : State), (∀ i ∈ p, i.wellFormed = true) → s.cmd = [] → s.din = [] →
    core.run p.length (sendCommands p s) = runCommands p s

/-- An UPDATE of any length sent as bursts: every burst is a well-formed command, the bursts carry the
payload in order, and they leave the context of one UPDATE with the whole (`30_encoding.md` R55, R62).
No header word carries a payload longer than `MAX_BURST`: that `exec` gives it the natural meaning is
log 5, and where the bursts are cut is log 19. -/
def Obligations.BurstsCoverALongUpdate : Prop :=
  ∀ (data : List Byte) (s : State), s.ctx.fin = false →
    (∀ i ∈ updateBursts data, i.wellFormed = true) ∧
    ((updateBursts data).map Instr.payload).flatten = data ∧
    ∃ t u, runCommands (updateBursts data) s = .next t ∧ exec (.update data) s = .next u ∧
      t.ctx = u.ctx

/-- Instances share no state; any interleaving of their commands gives each instance the same
result as running it alone (`20_memory.md` R38; parallel runs are interleavings, log 14). -/
def Obligations.InstancesAreIndependent : Prop :=
  ∀ (n : Nat) (order : List (Fin n)) (sys : System n), ∃ sys', System.run order sys = .next sys' ∧
    ∀ k : Fin n, core.run (order.count k) sys[k] = .next sys'[k]

/-- Instances start independently, each by its own hardware reset, and an event at one is seen by no
other: for every interleaving of events, hardware resets among them, each instance ends where its own
events alone lead it; hardware reset of one instance puts that one in the reset state and leaves the
others (`60_exceptions.md` R136, `20_memory.md` R38; parallel instances as an interleaving are log 14,
hardware reset as an event between steps is log 13). -/
def Obligations.EachInstanceHasItsOwnEvents : Prop :=
  ∀ (n : Nat) (sys : System n),
    (∀ order : List (Fin n × Event), ∃ sys', System.runEvents order sys = .next sys' ∧
      ∀ k : Fin n, runEvents ((order.filter fun x => x.1 = k).map Prod.snd) sys[k] = .next sys'[k]) ∧
    ∀ k : Fin n, System.onEvent k .hardwareReset sys = .next (System.hardwareReset k sys) ∧
      (System.hardwareReset k sys)[k] = State.reset ∧
      ∀ j : Fin n, j ≠ k → (System.hardwareReset k sys)[j] = sys[j]
end

