-- ==== Sys2Proof/Laws/Decode.lean ====
section
/-! SUPPORT. The fields of a header word, and which word decodes to what (`30_encoding.md` R51, R58). -/

namespace Sys2Proof

/-- A header word is its two fields. -/
theorem header_fields (cw : Word) : opField cw ++ argField cw = cw := by
  refine BitVec.eq_of_getLsbD_eq fun i hi => ?_
  simp only [opField, argField, BitVec.getLsbD_append, BitVec.getLsbD_extractLsb']
  by_cases h : i < 30
  · simp [h]
  · simp [h, show i - 30 < 2 by omega, show 30 + (i - 30) = i by omega]

/-- A header word is determined by its two fields. -/
theorem header_ext {x y : Word} (hop : opField x = opField y) (harg : argField x = argField y) :
    x = y := by rw [← header_fields x, ← header_fields y, hop, harg]

/-- The header word with given fields has these fields. -/
theorem opField_append (op : BitVec 2) (arg : BitVec 30) : opField (op ++ arg) = op := by
  refine BitVec.eq_of_getLsbD_eq fun i hi => ?_
  have h : BitVec.getLsbD (w := 32) (op ++ arg) (30 + i) = op.getLsbD i :=
    BitVec.getLsbD_append.trans (by simp)
  simpa [opField, hi] using h

theorem argField_append (op : BitVec 2) (arg : BitVec 30) : argField (op ++ arg) = arg := by
  refine BitVec.eq_of_getLsbD_eq fun i hi => ?_
  have h : BitVec.getLsbD (w := 32) (op ++ arg) i = arg.getLsbD i :=
    BitVec.getLsbD_append.trans (by simp [hi])
  simpa [argField, hi] using h

/-- The header word of an UPDATE: `op = 01` and `arg = len` (R53). -/
theorem header_update (data : List Byte) :
    (Instr.update data).header = (0b01 : BitVec 2) ++ BitVec.ofNat 30 data.length := by
  refine BitVec.eq_of_getLsbD_eq fun i hi => ?_
  simp only [Instr.header, Instr.matchWord, Instr.payload, BitVec.getLsbD_or, BitVec.getLsbD_append]
  have hm : ∀ i : Fin 32, BitVec.getLsbD (0x40000000 : Word) i.val = decide (i.val = 30) := by decide
  have h1 : ∀ k : Fin 2, BitVec.getLsbD (0b01 : BitVec 2) k.val = decide (k.val = 0) := by decide
  rw [show BitVec.getLsbD (0x40000000 : Word) i = decide (i = 30) from hm ⟨i, hi⟩]
  by_cases h : i < 30
  · simp [h, hi, show i ≠ 30 by omega]
  · rw [BitVec.getLsbD_setWidth, BitVec.getLsbD_of_ge (BitVec.ofNat 30 _) _ (by omega),
      show BitVec.getLsbD (0b01 : BitVec 2) (i - 30) = decide (i - 30 = 0) from h1 ⟨i - 30, by omega⟩]
    simp [h, show i = 30 ↔ i - 30 = 0 by omega]

theorem decodeHeader_reset : decodeHeader 0x00000000 = .reset := by decide

theorem decodeHeader_digest : decodeHeader 0x80000000 = .digest := by decide

/-- Every word with `op = 01` is an UPDATE (R53). -/
theorem decodeHeader_update {cw : Word} (h : opField cw = 0b01) :
    decodeHeader cw = .update (argField cw) := by
  have h0 : cw ≠ 0x00000000 := by
    rintro rfl; exact absurd h (by decide)
  rw [decodeHeader, if_neg h0, if_pos h]

/-- Every other word but the two control words is reserved (R57). -/
theorem decodeHeader_illegal {cw : Word} (h0 : cw ≠ 0x00000000) (h1 : opField cw ≠ 0b01)
    (h2 : cw ≠ 0x80000000) : decodeHeader cw = .illegal := by
  rw [decodeHeader, if_neg h0, if_neg h1, if_neg h2]

/-- What a header word can decode to. -/
theorem decodeHeader_cases (cw : Word) :
    (cw = 0x00000000 ∧ decodeHeader cw = .reset) ∨
    (opField cw = 0b01 ∧ decodeHeader cw = .update (argField cw)) ∨
    (cw = 0x80000000 ∧ decodeHeader cw = .digest) ∨
    (cw ≠ 0x00000000 ∧ opField cw ≠ 0b01 ∧ cw ≠ 0x80000000 ∧ decodeHeader cw = .illegal) := by
  by_cases h1 : opField cw = 0b01
  · exact .inr (.inl ⟨h1, decodeHeader_update h1⟩)
  by_cases h0 : cw = 0x00000000
  · exact .inl ⟨h0, h0 ▸ decodeHeader_reset⟩
  by_cases h2 : cw = 0x80000000
  · exact .inr (.inr (.inl ⟨h2, h2 ▸ decodeHeader_digest⟩))
  · exact .inr (.inr (.inr ⟨h0, h1, h2, decodeHeader_illegal h0 h1 h2⟩))

/-- A whole UPDATE on the channels. -/
theorem decode_update {cw : Word} {len : BitVec 30} (h : decodeHeader cw = .update len)
    {din : List Byte} (hlen : len.toNat ≤ din.length) :
    decode cw din = .command (.update (din.take len.toNat)) (din.drop len.toNat) := by
  simp [decode, h, Nat.not_lt.mpr hlen]

/-- An UPDATE whose payload is not all there. -/
theorem decode_short {cw : Word} {len : BitVec 30} (h : decodeHeader cw = .update len)
    {din : List Byte} (hlen : din.length < len.toNat) : decode cw din = .payloadShort := by
  simp [decode, h, hlen]

end Sys2Proof
end

