-- ==== Sys2Proof/Laws/Memory.lean ====
section
/-! SUPPORT. The laws of `BUF`: a read after a write, and the canonical form (`10_state.md` R13,
log 7). -/

namespace Sys2Proof.Machine

theorem lookupCell_filter_same (m : Memory) (a : Nat) :
    Memory.lookupCell (m.filter fun cell => cell.1 != a) a = Memory.unlisted := by
  induction m with
  | nil => rfl
  | cons cell m ih =>
    obtain ⟨k, c⟩ := cell
    by_cases h : k = a
    · simpa [h] using ih
    · simpa [h, Memory.lookupCell] using ih

theorem lookupCell_filter_other (m : Memory) {a j : Nat} (h : j ≠ a) :
    Memory.lookupCell (m.filter fun cell => cell.1 != a) j = Memory.lookupCell m j := by
  induction m with
  | nil => rfl
  | cons cell m ih =>
    obtain ⟨k, c⟩ := cell
    by_cases hk : k = a
    · subst hk; simpa [Memory.lookupCell, h.symm] using ih
    · simp [hk, Memory.lookupCell, ih]

theorem lookupCell_insertCell (m : Memory) (a j : Nat) (b : Byte)
    (habsent : ∀ cell ∈ m, cell.1 ≠ a) :
    Memory.lookupCell (Memory.insertCell m a b) j = if j = a then b else Memory.lookupCell m j := by
  induction m with
  | nil => simp [Memory.insertCell, Memory.lookupCell, eq_comm]
  | cons cell m ih =>
    obtain ⟨k, c⟩ := cell
    have hk : k ≠ a := habsent (k, c) (by simp)
    have ih := ih fun cell hc => habsent cell (by simp [hc])
    unfold Memory.insertCell
    split
    · by_cases hj : j = a
      · subst hj; simp [Memory.lookupCell]
      · simp [Memory.lookupCell, hj, Ne.symm hj]
    · by_cases hkj : k = j
      · subst hkj; simp [Memory.lookupCell, hk]
      · simp [Memory.lookupCell, hkj, ih]

/-- `BUF[j]` after `BUF[a] <- b`: the byte written at `a`, every other byte as before. -/
theorem Memory.read_write (m : Memory) (a j : Fin 64) (b : Byte) :
    (Memory.write m a b).read j = if j = a then b else Memory.read m j := by
  have habsent : ∀ cell ∈ m.filter (fun cell => cell.1 != a.val), cell.1 ≠ a.val := by
    intro cell hc
    simpa using (List.mem_filter.mp hc).2
  have hja : j.val = a.val ↔ j = a := by omega
  unfold Memory.write Memory.read
  by_cases hb : b = Memory.unlisted
  · simp only [hb, if_true]
    by_cases hj : j = a
    · simp [hj, lookupCell_filter_same]
    · rw [lookupCell_filter_other _ (by omega)]; simp [hj]
  · simp only [hb, if_false, lookupCell_insertCell _ _ _ _ habsent, hja]
    by_cases hj : j = a
    · simp [hj]
    · simp only [hj, if_false]; exact lookupCell_filter_other _ (by omega)

@[simp] theorem Memory.read_write_same (m : Memory) (a : Fin 64) (b : Byte) :
    (Memory.write m a b).read a = b := by simp [Memory.read_write]

theorem Memory.read_write_other (m : Memory) {a j : Fin 64} (b : Byte) (h : j ≠ a) :
    (Memory.write m a b).read j = Memory.read m j := by simp [Memory.read_write, h]

/-- Reset contents: every byte reads 0x00. -/
@[simp] theorem Memory.read_nil (j : Fin 64) : Memory.read [] j = 0x00 := rfl

theorem mem_insertCell {m : Memory} {a : Nat} {b : Byte} {cell : Host.Cell}
    (h : cell ∈ Memory.insertCell m a b) : cell = (a, b) ∨ cell ∈ m := by
  induction m with
  | nil => exact .inl (by simpa [Memory.insertCell] using h)
  | cons c m ih =>
    obtain ⟨k, v⟩ := c
    unfold Memory.insertCell at h
    split at h
    · simpa using h
    · rcases List.mem_cons.mp h with h | h
      · exact .inr (by simp [h])
      · rcases ih h with h | h
        · exact .inl h
        · exact .inr (by simp [h])

theorem pairwise_insertCell {m : Memory} {a : Nat} {b : Byte}
    (hm : m.Pairwise fun x y => x.1 < y.1) (habsent : ∀ cell ∈ m, cell.1 ≠ a) :
    (Memory.insertCell m a b).Pairwise fun x y => x.1 < y.1 := by
  induction m with
  | nil => simp [Memory.insertCell]
  | cons c m ih =>
    obtain ⟨k, v⟩ := c
    have hk : k ≠ a := habsent (k, v) (by simp)
    rw [List.pairwise_cons] at hm
    unfold Memory.insertCell
    split
    · rename_i hlt
      refine List.pairwise_cons.mpr ⟨?_, List.pairwise_cons.mpr hm⟩
      intro y hy
      rcases List.mem_cons.mp hy with rfl | hy
      · exact hlt
      · exact lt_trans hlt (hm.1 y hy)
    · refine List.pairwise_cons.mpr ⟨?_, ih hm.2 fun cell hc => habsent cell (by simp [hc])⟩
      intro y hy
      rcases mem_insertCell hy with rfl | hy
      · show k < a
        omega
      · exact hm.1 y hy

/-- A write keeps the canonical form. -/
theorem Memory.wf_write {m : Memory} (hm : Memory.wf m) (a : Fin 64) (b : Byte) :
    Memory.wf (Memory.write m a b) := by
  have habsent : ∀ cell ∈ m.filter (fun cell => cell.1 != a.val), cell.1 ≠ a.val := by
    intro cell hc
    simpa using (List.mem_filter.mp hc).2
  have hf : Memory.wf (m.filter fun cell => cell.1 != a.val) :=
    ⟨hm.1.filter _, fun cell hc => hm.2 cell (List.mem_filter.mp hc).1⟩
  unfold Memory.write
  by_cases hb : b = Memory.unlisted
  · simpa only [hb, if_true] using hf
  · simp only [hb, if_false]
    refine ⟨pairwise_insertCell hf.1 habsent, fun cell hc => ?_⟩
    rcases mem_insertCell hc with rfl | hc
    · exact ⟨a.isLt, hb⟩
    · exact hf.2 cell hc

/-- The reset memory is in canonical form. -/
theorem Memory.wf_nil : Memory.wf [] := by decide

/-- Canonical memories are equal when their first cells and the rest are: the head cell is what the
smallest listed index reads as. -/
theorem lookupCell_eq_unlisted_of_lt {m : Memory} {a : Nat} (h : ∀ cell ∈ m, a < cell.1) :
    Memory.lookupCell m a = Memory.unlisted := by
  induction m with
  | nil => rfl
  | cons c m ih =>
    obtain ⟨k, v⟩ := c
    have hk : a < k := h (k, v) (by simp)
    simpa [Memory.lookupCell, show k ≠ a by omega] using ih fun cell hc => h cell (by simp [hc])

/-- Equal reads make equal data: two buffers in canonical form that read alike at every index are the
same list. -/
theorem Memory.eq_of_reads {m n : Memory} (hm : Memory.wf m) (hn : Memory.wf n)
    (h : ∀ a : Nat, Memory.lookupCell m a = Memory.lookupCell n a) : m = n := by
  induction m generalizing n with
  | nil =>
    cases n with
    | nil => rfl
    | cons c n =>
      obtain ⟨k, v⟩ := c
      exact absurd (by simpa [Memory.lookupCell] using (h k).symm) (hn.2 (k, v) (by simp)).2
  | cons c m ih =>
    obtain ⟨k, v⟩ := c
    cases n with
    | nil => exact absurd (by simpa [Memory.lookupCell] using h k) (hm.2 (k, v) (by simp)).2
    | cons c' n =>
      obtain ⟨l, w⟩ := c'
      have hmp := List.pairwise_cons.mp hm.1
      have hnp := List.pairwise_cons.mp hn.1
      have hv := (hm.2 (k, v) (by simp)).2
      have hw := (hn.2 (l, w) (by simp)).2
      have hkl : k = l := by
        rcases Nat.lt_trichotomy k l with hlt | heq | hgt
        · have := h k
          rw [lookupCell_eq_unlisted_of_lt (m := (l, w) :: n)] at this
          · exact absurd (by simpa [Memory.lookupCell] using this) hv
          · intro cell hc
            rcases List.mem_cons.mp hc with rfl | hc
            · exact hlt
            · exact lt_trans hlt (hnp.1 cell hc)
        · exact heq
        · have := (h l).symm
          rw [lookupCell_eq_unlisted_of_lt (m := (k, v) :: m)] at this
          · exact absurd (by simpa [Memory.lookupCell] using this) hw
          · intro cell hc
            rcases List.mem_cons.mp hc with rfl | hc
            · exact hgt
            · exact lt_trans hgt (hmp.1 cell hc)
      subst hkl
      have hvw : v = w := by simpa [Memory.lookupCell] using h k
      subst hvw
      congr 1
      refine ih ⟨hmp.2, fun cell hc => hm.2 cell (by simp [hc])⟩
        ⟨hnp.2, fun cell hc => hn.2 cell (by simp [hc])⟩ fun a => ?_
      by_cases ha : k = a
      · subst ha
        rw [lookupCell_eq_unlisted_of_lt hmp.1, lookupCell_eq_unlisted_of_lt hnp.1]
      · simpa [Memory.lookupCell, ha] using h a

@[simp] theorem Memory.block_getElem (m : Memory) (j : Nat) (h : j < 64) :
    (Memory.block m)[j] = Memory.read m ⟨j, h⟩ := by simp [Memory.block]

end Sys2Proof.Machine
end

