-- ==== Sys2Proof/Laws/Operands.lean ====
section
/-! SUPPORT. What the byte and word conversions and the rotation give (`00_scope.md` R8,
`20_memory.md` R31), said once. -/

namespace Sys2Proof.Machine

/-- Byte `k` of a word is its bits `8k+7 .. 8k`. -/
theorem leBytes32_getElem (w : Word) {k : Nat} (hk : k < 4) :
    (leBytes32 w)[k] = w.extractLsb' (8 * k) 8 := by
  interval_cases k <;> rfl

/-- The number a word of four bytes is. -/
theorem le32_toNat (b0 b1 b2 b3 : Byte) :
    (le32 b0 b1 b2 b3).toNat =
      b0.toNat + 2 ^ 8 * b1.toNat + 2 ^ 16 * b2.toNat + 2 ^ 24 * b3.toNat := by
  have happ : ∀ {m n : Nat} (x : BitVec m) (y : BitVec n),
      (x ++ y).toNat = x.toNat * 2 ^ n + y.toNat := by
    intro m n x y
    rw [BitVec.toNat_append, ← Nat.shiftLeft_add_eq_or_of_lt y.isLt, Nat.shiftLeft_eq]
  have hsum : BitVec.toNat (w := 32) (b3 ++ b2 ++ b1 ++ b0) =
      ((b3.toNat * 2 ^ 8 + b2.toNat) * 2 ^ 8 + b1.toNat) * 2 ^ 8 + b0.toNat := by
    rw [show BitVec.toNat (w := 32) (b3 ++ b2 ++ b1 ++ b0) = _ from happ _ _, happ, happ]
  rw [le32, hsum]
  omega

/-- The bits of a word of four bytes. -/
theorem le32_getLsbD (a b c d : Byte) {i : Nat} (hi : i < 32) :
    BitVec.getLsbD (le32 a b c d) i =
      if i < 8 then a.getLsbD i
      else if i < 16 then b.getLsbD (i - 8)
      else if i < 24 then c.getLsbD (i - 16)
      else d.getLsbD (i - 24) := by
  unfold le32
  rw [show BitVec.getLsbD (w := 32) (d ++ c ++ b ++ a) i = _ from BitVec.getLsbD_append,
    BitVec.getLsbD_append, BitVec.getLsbD_append]
  by_cases h1 : i < 8
  · simp [h1]
  · by_cases h2 : i < 16
    · simp [h1, h2, show i - 8 < 8 by omega]
    · by_cases h3 : i < 24
      · simp [h1, h2, h3, show ¬i - 8 < 8 by omega, show i - 16 < 8 by omega,
          show i - 8 - 8 = i - 16 by omega]
      · simp [h1, h2, h3, show ¬i - 8 < 8 by omega, show ¬i - 8 - 8 < 8 by omega,
          show i - 8 - 8 - 8 = i - 24 by omega]

/-- Four neighbouring bytes of a wider value, put together again, are its 32 bits there. -/
theorem le32_extractLsb' {w : Nat} (x : BitVec w) (o : Nat) :
    le32 (x.extractLsb' o 8) (x.extractLsb' (o + 8) 8) (x.extractLsb' (o + 16) 8)
      (x.extractLsb' (o + 24) 8) = x.extractLsb' o 32 := by
  refine BitVec.eq_of_getLsbD_eq fun i hi => ?_
  rw [le32_getLsbD _ _ _ _ hi]
  simp only [BitVec.getLsbD_extractLsb']
  by_cases h1 : i < 8
  · simp [h1, hi]
  · by_cases h2 : i < 16
    · simp [h1, h2, hi, show i - 8 < 8 by omega, show o + 8 + (i - 8) = o + i by omega]
    · by_cases h3 : i < 24
      · simp [h1, h2, h3, hi, show i - 16 < 8 by omega, show o + 16 + (i - 16) = o + i by omega]
      · simp [h1, h2, h3, hi, show i - 24 < 8 by omega, show o + 24 + (i - 24) = o + i by omega]

/-- A word is the word of its four bytes. -/
theorem le32_leBytes32 (w : Word) :
    le32 (w.extractLsb' 0 8) (w.extractLsb' 8 8) (w.extractLsb' 16 8) (w.extractLsb' 24 8) = w :=
  (le32_extractLsb' w 0).trans BitVec.extractLsb'_eq_self

/-- The sum of R8 is a rotation: for `1 <= s <= 31` it is the rotation of the bit vectors. -/
theorem rotl32_eq_rotateLeft (x : Word) {s : Nat} (h1 : 1 ≤ s) (h2 : s ≤ 31) :
    rotl32 x s = x.rotateLeft s := by
  have hs : s % 32 = s := by omega
  have hpow : (2 : Nat) ^ 32 = 2 ^ (32 - s) * 2 ^ s := by rw [← pow_add]; congr 1; omega
  have hdiv : x.toNat / 2 ^ (32 - s) < 2 ^ s := by
    rw [Nat.div_lt_iff_lt_mul (by positivity), Nat.mul_comm, ← hpow]; exact x.isLt
  have hmul : x.toNat * 2 ^ s % 2 ^ 32 = x.toNat % 2 ^ (32 - s) * 2 ^ s := by
    rw [hpow, Nat.mul_mod_mul_right]
  have hlow : x.toNat % 2 ^ (32 - s) < 2 ^ (32 - s) := Nat.mod_lt _ (by positivity)
  rw [BitVec.rotateLeft_def, hs]
  apply BitVec.eq_of_toNat_eq
  rw [rotl32, BitVec.toNat_or, BitVec.toNat_shiftLeft, BitVec.toNat_ushiftRight, BitVec.toNat_ofNat,
    Nat.shiftLeft_eq, Nat.shiftRight_eq_div_pow, hmul, ← Nat.shiftLeft_eq,
    ← Nat.shiftLeft_add_eq_or_of_lt hdiv]
  apply Nat.mod_eq_of_lt
  rw [Nat.shiftLeft_eq]
  calc _ < x.toNat % 2 ^ (32 - s) * 2 ^ s + 2 ^ s := by omega
    _ = (x.toNat % 2 ^ (32 - s) + 1) * 2 ^ s := by ring
    _ ≤ 2 ^ (32 - s) * 2 ^ s := Nat.mul_le_mul_right _ hlow
    _ = 2 ^ 32 := hpow.symm

end Sys2Proof.Machine
end

