-- ==== Sys2Proof/Laws/State.lean ====
section
/-! SUPPORT. One lemma per field per update of the state records, so that no later proof unfolds a
record update. -/

namespace Sys2Proof.Machine

/-! ## Updates of `State` -/

@[simp] theorem respond_ctx (st : Status) (d : Option Dout) (s : State) :
    (respond st d s).ctx = s.ctx := rfl
@[simp] theorem respond_cmd (st : Status) (d : Option Dout) (s : State) :
    (respond st d s).cmd = s.cmd := rfl
@[simp] theorem respond_din (st : Status) (d : Option Dout) (s : State) :
    (respond st d s).din = s.din := rfl
@[simp] theorem respond_rsp (st : Status) (d : Option Dout) (s : State) :
    (respond st d s).rsp = s.rsp ++ [⟨st, d⟩] := rfl

@[simp] theorem raise_ctx (e : Exception) (s : State) : (raise e s).ctx = s.ctx := rfl
@[simp] theorem raise_cmd (e : Exception) (s : State) : (raise e s).cmd = s.cmd := rfl
@[simp] theorem raise_din (e : Exception) (s : State) : (raise e s).din = s.din := rfl
@[simp] theorem raise_rsp (e : Exception) (s : State) :
    (raise e s).rsp = s.rsp ++ [⟨e.status, none⟩] := rfl

@[simp] theorem withCtx_ctx (s : State) (c : Context) : (s.withCtx c).ctx = c := rfl
@[simp] theorem withCtx_cmd (s : State) (c : Context) : (s.withCtx c).cmd = s.cmd := rfl
@[simp] theorem withCtx_din (s : State) (c : Context) : (s.withCtx c).din = s.din := rfl
@[simp] theorem withCtx_rsp (s : State) (c : Context) : (s.withCtx c).rsp = s.rsp := rfl

@[simp] theorem sendHeader_ctx (cw : Word) (s : State) : (sendHeader cw s).ctx = s.ctx := rfl
@[simp] theorem sendHeader_cmd (cw : Word) (s : State) :
    (sendHeader cw s).cmd = s.cmd ++ [cw] := rfl
@[simp] theorem sendHeader_din (cw : Word) (s : State) : (sendHeader cw s).din = s.din := rfl
@[simp] theorem sendHeader_rsp (cw : Word) (s : State) : (sendHeader cw s).rsp = s.rsp := rfl

@[simp] theorem sendPayload_ctx (bs : List Byte) (s : State) : (sendPayload bs s).ctx = s.ctx := rfl
@[simp] theorem sendPayload_cmd (bs : List Byte) (s : State) : (sendPayload bs s).cmd = s.cmd := rfl
@[simp] theorem sendPayload_din (bs : List Byte) (s : State) :
    (sendPayload bs s).din = s.din ++ bs := rfl
@[simp] theorem sendPayload_rsp (bs : List Byte) (s : State) : (sendPayload bs s).rsp = s.rsp := rfl

@[simp] theorem sendCommand_ctx (i : Instr) (s : State) : (sendCommand i s).ctx = s.ctx := rfl
@[simp] theorem sendCommand_cmd (i : Instr) (s : State) :
    (sendCommand i s).cmd = s.cmd ++ [i.header] := rfl
@[simp] theorem sendCommand_din (i : Instr) (s : State) :
    (sendCommand i s).din = s.din ++ i.payload := rfl
@[simp] theorem sendCommand_rsp (i : Instr) (s : State) : (sendCommand i s).rsp = s.rsp := rfl

@[simp] theorem takeResponse_ctx (s : State) : (takeResponse s).2.ctx = s.ctx := rfl
@[simp] theorem takeResponse_cmd (s : State) : (takeResponse s).2.cmd = s.cmd := rfl
@[simp] theorem takeResponse_din (s : State) : (takeResponse s).2.din = s.din := rfl
@[simp] theorem takeResponse_rsp (s : State) : (takeResponse s).2.rsp = s.rsp.tail := rfl

@[simp] theorem withFetchWord_ctx (s : State) (nbits w : Nat) :
    (s.withFetchWord nbits w).ctx = s.ctx := rfl
@[simp] theorem withFetchWord_rsp (s : State) (nbits w : Nat) :
    (s.withFetchWord nbits w).rsp = s.rsp := rfl

/-! ## Updates of `Context` -/

@[simp] theorem setFinished_acc (c : Context) : c.setFinished.acc = c.acc := rfl
@[simp] theorem setFinished_count (c : Context) : c.setFinished.count = c.count := rfl
@[simp] theorem setFinished_buf (c : Context) : c.setFinished.buf = c.buf := rfl
@[simp] theorem setFinished_fill (c : Context) : c.setFinished.fill = c.fill := rfl
@[simp] theorem setFinished_fin (c : Context) : c.setFinished.fin = true := rfl

@[simp] theorem advanceCount_acc (n : Nat) (c : Context) : (advanceCount n c).acc = c.acc := rfl
@[simp] theorem advanceCount_count (n : Nat) (c : Context) :
    (advanceCount n c).count = c.count + zext64 n := rfl
@[simp] theorem advanceCount_buf (n : Nat) (c : Context) : (advanceCount n c).buf = c.buf := rfl
@[simp] theorem advanceCount_fill (n : Nat) (c : Context) : (advanceCount n c).fill = c.fill := rfl
@[simp] theorem advanceCount_fin (n : Nat) (c : Context) : (advanceCount n c).fin = c.fin := rfl

@[simp] theorem withAcc_acc (c : Context) (x : Accumulator) : (c.withAcc x).acc = x := rfl
@[simp] theorem withAcc_count (c : Context) (x : Accumulator) : (c.withAcc x).count = c.count := rfl
@[simp] theorem withAcc_buf (c : Context) (x : Accumulator) : (c.withAcc x).buf = c.buf := rfl
@[simp] theorem withAcc_fill (c : Context) (x : Accumulator) : (c.withAcc x).fill = c.fill := rfl
@[simp] theorem withAcc_fin (c : Context) (x : Accumulator) : (c.withAcc x).fin = c.fin := rfl

@[simp] theorem withFill_acc (c : Context) (n : Fin 64) : (c.withFill n).acc = c.acc := rfl
@[simp] theorem withFill_count (c : Context) (n : Fin 64) : (c.withFill n).count = c.count := rfl
@[simp] theorem withFill_buf (c : Context) (n : Fin 64) : (c.withFill n).buf = c.buf := rfl
@[simp] theorem withFill_fill (c : Context) (n : Fin 64) : (c.withFill n).fill = n := rfl
@[simp] theorem withFill_fin (c : Context) (n : Fin 64) : (c.withFill n).fin = c.fin := rfl

@[simp] theorem storeByte_acc (c : Context) (x : Byte) : (c.storeByte x).acc = c.acc := rfl
@[simp] theorem storeByte_count (c : Context) (x : Byte) : (c.storeByte x).count = c.count := rfl
@[simp] theorem storeByte_buf (c : Context) (x : Byte) :
    (c.storeByte x).buf = Memory.write c.buf c.fill x := rfl
@[simp] theorem storeByte_fill (c : Context) (x : Byte) : (c.storeByte x).fill = c.fill := rfl
@[simp] theorem storeByte_fin (c : Context) (x : Byte) : (c.storeByte x).fin = c.fin := rfl

/-! The lemmas of ABSORB's and FINALIZE's parts rewrite: a proof by `rfl` would make the kernel unfold
COMPRESS on variables. -/

@[simp] theorem compressBuffer_acc (c : Context) :
    (compressBuffer c).acc = compress c.acc (Memory.block c.buf) := by
  rw [compressBuffer, withFill_acc, withAcc_acc]
@[simp] theorem compressBuffer_count (c : Context) : (compressBuffer c).count = c.count := by
  rw [compressBuffer, withFill_count, withAcc_count]
@[simp] theorem compressBuffer_buf (c : Context) : (compressBuffer c).buf = c.buf := by
  rw [compressBuffer, withFill_buf, withAcc_buf]
@[simp] theorem compressBuffer_fill (c : Context) : (compressBuffer c).fill = 0 := by
  rw [compressBuffer, withFill_fill]
@[simp] theorem compressBuffer_fin (c : Context) : (compressBuffer c).fin = c.fin := by
  rw [compressBuffer, withFill_fin, withAcc_fin]

@[simp] theorem finalize_acc (c : Context) : (finalize c).acc = finalAccumulator c := by
  rw [finalize, setFinished_acc, withAcc_acc]
@[simp] theorem finalize_count (c : Context) : (finalize c).count = c.count := by
  rw [finalize, setFinished_count, withAcc_count]
@[simp] theorem finalize_buf (c : Context) : (finalize c).buf = c.buf := by
  rw [finalize, setFinished_buf, withAcc_buf]
@[simp] theorem finalize_fill (c : Context) : (finalize c).fill = c.fill := by
  rw [finalize, setFinished_fill, withAcc_fill]
@[simp] theorem finalize_fin (c : Context) : (finalize c).fin = true := by
  rw [finalize, setFinished_fin]

@[simp] theorem initial_acc : Context.initial.acc = initialAccumulator := rfl
@[simp] theorem initial_count : Context.initial.count = 0 := rfl
@[simp] theorem initial_buf : Context.initial.buf = [] := rfl
@[simp] theorem initial_fill : Context.initial.fill = 0 := rfl
@[simp] theorem initial_fin : Context.initial.fin = false := rfl

/-- Two contexts with equal fields are equal. -/
theorem Context.eq_of_fields {c d : Context} (hacc : c.acc = d.acc) (hcount : c.count = d.count)
    (hbuf : c.buf = d.buf) (hfill : c.fill = d.fill) (hfin : c.fin = d.fin) : c = d := by
  cases c; cases d; simp_all

/-- Two states with equal fields are equal. -/
theorem State.eq_of_fields {s t : State} (hctx : s.ctx = t.ctx) (hcmd : s.cmd = t.cmd)
    (hdin : s.din = t.din) (hrsp : s.rsp = t.rsp) : s = t := by
  cases s; cases t; simp_all

end Sys2Proof.Machine
end

