-- ==== Sys2Proof/Laws/Digest.lean ====
section
/-! SUPPORT. What DIGEST answers, and the bytes of the final blocks (`42_digest.md` R100 to R104). -/

namespace Sys2Proof.Machine

/-- What DIGEST answers: one next state (R100). -/
theorem execDigest_eq (s : State) :
    execDigest s = .next (respond .ok
      (some (doutOf (digestBytes (if s.ctx.fin then s.ctx else finalize s.ctx).acc)))
      (s.withCtx (if s.ctx.fin then s.ctx else finalize s.ctx))) := rfl

/-- What DIGEST answers in phase ABSORBING. -/
theorem execDigest_absorbing {s : State} (hf : s.ctx.fin = false) :
    execDigest s = .next (respond .ok (some (doutOf (digestBytes (finalAccumulator s.ctx))))
      (s.withCtx (finalize s.ctx))) := by
  rw [execDigest_eq, hf, if_neg (by decide), finalize_acc]

/-- What DIGEST answers in phase FINISHED: the context stays. -/
theorem execDigest_finished {s : State} (hf : s.ctx.fin = true) :
    execDigest s = .next (respond .ok (some (doutOf (digestBytes s.ctx.acc))) s) := by
  rw [execDigest_eq, hf, if_pos rfl]; rfl

/-- There are `FILL` buffered bytes. -/
@[simp] theorem pending_length (c : Context) : c.pending.length = c.fill.val := by
  simp [Context.pending]

/-- The buffered bytes are the first ones of `BUF`. -/
theorem pending_getElem (c : Context) {j : Nat} (h : j < c.pending.length) :
    c.pending[j] = c.buf.read ⟨j, by rw [pending_length] at h; omega⟩ := by
  simp [Context.pending]

/-- Buffers that read alike are the same block. -/
theorem block_congr {m n : Memory} (h : ∀ j : Fin 64, m.read j = n.read j) :
    Memory.block m = Memory.block n := congrArg Vector.ofFn (funext h)

theorem needsExtraBlock_eq_false {c : Context} (h : c.fill.val ≤ 55) : needsExtraBlock c = false := by
  simp only [needsExtraBlock, decide_eq_false_iff_not]; omega

theorem needsExtraBlock_eq_true {c : Context} (h : 56 ≤ c.fill.val) : needsExtraBlock c = true :=
  decide_eq_true h

/-- With at most 55 buffered bytes there is one final block (R102). -/
theorem finalAccumulator_one {c : Context} (h : c.fill.val ≤ 55) :
    finalAccumulator c = compress c.acc (lastBlock c) := by
  rw [finalAccumulator, needsExtraBlock_eq_false h]
  simp only [if_neg (show ¬false = true by decide)]

/-- With 56 or more there are two (R102). -/
theorem finalAccumulator_two {c : Context} (h : 56 ≤ c.fill.val) :
    finalAccumulator c = compress (compress c.acc (extraBlock c)) (lastBlock c) := by
  rw [finalAccumulator, needsExtraBlock_eq_true h]
  simp only [if_pos]

/-- The last eight bytes of the last block are the length tail. -/
theorem lastBlock_tail (c : Context) {j : Nat} (hj : j < 8) :
    (lastBlock c)[56 + j] = (lengthTail c.count)[j] := by simp [lastBlock]

end Sys2Proof.Machine
end

