-- ==== Sys2Proof/Laws/Update.lean ====
section
/-! SUPPORT. What ABSORB and UPDATE's payload loop can do, said once (`41_update.md` R91). -/

namespace Sys2Proof.Machine

@[simp] theorem absorb_count (c : Context) (x : Byte) : (absorb c x).count = c.count := by
  unfold absorb; split <;> simp

@[simp] theorem absorb_fin (c : Context) (x : Byte) : (absorb c x).fin = c.fin := by
  unfold absorb; split <;> simp

@[simp] theorem absorb_buf (c : Context) (x : Byte) :
    (absorb c x).buf = Memory.write c.buf c.fill x := by
  unfold absorb; split <;> simp

theorem absorb_fill (c : Context) (x : Byte) :
    (absorb c x).fill = if c.fill = 63 then 0 else c.fill + 1 := by
  unfold absorb; split <;> simp

theorem absorb_acc (c : Context) (x : Byte) :
    (absorb c x).acc =
      if c.fill = 63 then compress c.acc (Memory.block (Memory.write c.buf c.fill x)) else c.acc := by
  unfold absorb; split <;> simp

/-- The fill length counts modulo 64. -/
theorem absorb_fill_val (c : Context) (x : Byte) :
    (absorb c x).fill.val = (c.fill.val + 1) % 64 := by
  rw [absorb_fill]
  split
  · rename_i h; simp [h]
  · simp [Fin.val_add]

@[simp] theorem absorbAll_nil (c : Context) : absorbAll c [] = c := rfl

@[simp] theorem absorbAll_cons (c : Context) (x : Byte) (data : List Byte) :
    absorbAll c (x :: data) = absorbAll (absorb c x) data := rfl

/-- The payload loop over two payloads is the loop over the one and then the other. -/
theorem absorbAll_append (c : Context) (u v : List Byte) :
    absorbAll c (u ++ v) = absorbAll (absorbAll c u) v := List.foldl_append

@[simp] theorem absorbAll_count (c : Context) (data : List Byte) :
    (absorbAll c data).count = c.count := by
  induction data generalizing c with
  | nil => rfl
  | cons x data ih => rw [absorbAll_cons, ih, absorb_count]

@[simp] theorem absorbAll_fin (c : Context) (data : List Byte) :
    (absorbAll c data).fin = c.fin := by
  induction data generalizing c with
  | nil => rfl
  | cons x data ih => rw [absorbAll_cons, ih, absorb_fin]

theorem absorbAll_fill_val (c : Context) (data : List Byte) :
    (absorbAll c data).fill.val = (c.fill.val + data.length) % 64 := by
  induction data generalizing c with
  | nil => simpa using (Nat.mod_eq_of_lt c.fill.isLt).symm
  | cons x data ih => rw [absorbAll_cons, ih, absorb_fill_val]; simp; omega

/-- The payload loop keeps the buffer in canonical form. -/
theorem absorbAll_wf {c : Context} (hc : Memory.wf c.buf) (data : List Byte) :
    Memory.wf (absorbAll c data).buf := by
  induction data generalizing c with
  | nil => exact hc
  | cons x data ih => exact ih (by rw [absorb_buf]; exact Memory.wf_write hc _ _)

/-- The fill length is a number modulo 64, so `COUNT` and `FILL` advance alike. -/
theorem zext64_toNat_mod (n : Nat) : (zext64 n).toNat % 64 = n % 64 := by
  simp [zext64, BitVec.toNat_ofNat]

/-- What UPDATE answers: one of three next states (R90). -/
theorem execUpdate_cases (data : List Byte) (s : State) :
    (data = [] ∧ execUpdate data s = .next (respond .ok none s)) ∨
    (data ≠ [] ∧ s.ctx.fin = true ∧ execUpdate data s = .next (raise .alreadyFinished s)) ∨
    (data ≠ [] ∧ s.ctx.fin = false ∧ execUpdate data s =
      .next (respond .ok none (s.withCtx (advanceCount data.length (absorbAll s.ctx data))))) := by
  unfold execUpdate
  rcases data with _ | ⟨x, data⟩
  · simp
  · cases h : s.ctx.fin <;> simp

/-- What UPDATE answers in phase ABSORBING, the empty payload included. -/
theorem execUpdate_absorbing (data : List Byte) {s : State} (hf : s.ctx.fin = false) :
    execUpdate data s =
      .next (respond .ok none (s.withCtx (advanceCount data.length (absorbAll s.ctx data)))) := by
  rcases execUpdate_cases data s with ⟨hd, h⟩ | ⟨-, h, -⟩ | ⟨-, -, h⟩
  · rw [h, hd]; congr 2; apply State.eq_of_fields <;> simp [advanceCount, zext64]
  · exact absurd (hf.symm.trans h) (by decide)
  · exact h

/-- What UPDATE answers in phase FINISHED: only a response is added. -/
theorem execUpdate_finished (data : List Byte) {s : State} (hf : s.ctx.fin = true) :
    ∃ st : Status, execUpdate data s = .next (respond st none s) := by
  rcases execUpdate_cases data s with ⟨-, h⟩ | ⟨-, -, h⟩ | ⟨-, h, -⟩
  · exact ⟨_, h⟩
  · exact ⟨_, h⟩
  · exact absurd (hf.symm.trans h) (by decide)

/-- ABSORB does not read `COUNT`, so the counter may advance before or after it (R93). -/
theorem absorbAll_advanceCount (n : Nat) (c : Context) (data : List Byte) :
    absorbAll (advanceCount n c) data = advanceCount n (absorbAll c data) := by
  induction data generalizing c with
  | nil => rfl
  | cons x data ih =>
    rw [absorbAll_cons, absorbAll_cons, ← ih]
    congr 1
    apply Context.eq_of_fields <;> simp [absorb_acc, absorb_fill] <;> rfl

end Sys2Proof.Machine
end

