-- ==== Sys2Proof/Laws/Step.lean ====
section
/-! SUPPORT. What a fetch, a command and a step can do, said once, so that later proofs cite these
lemmas and unfold neither `fetch` nor `step`. -/

namespace Sys2Proof.Machine

@[simp] theorem exec_reset (s : State) : exec .reset s = execReset s := rfl
@[simp] theorem exec_update (data : List Byte) (s : State) :
    exec (.update data) s = execUpdate data s := rfl
@[simp] theorem exec_digest (s : State) : exec .digest s = execDigest s := rfl

/-- What a command does depends on the context alone: it answers a next state with another context, one
response more, and the same `CMD` and `DIN`. -/
theorem exec_of_ctx (i : Instr) (c : Context) :
    ∃ (c' : Context) (r : Response), ∀ s : State, s.ctx = c →
      exec i s = .next { ctx := c', cmd := s.cmd, din := s.din, rsp := s.rsp ++ [r] } := by
  cases i with
  | reset => exact ⟨_, _, fun s _ => rfl⟩
  | update data =>
    by_cases hd : data = []
    · exact ⟨c, ⟨.ok, none⟩, fun s hs => by subst hd hs; rfl⟩
    · cases hf : c.fin with
      | true =>
        refine ⟨c, ⟨.alreadyFinished, none⟩, fun s hs => ?_⟩
        subst hs
        rcases execUpdate_cases data s with ⟨h, -⟩ | ⟨-, -, h⟩ | ⟨-, h, -⟩
        · exact absurd h hd
        · rw [exec_update, h]; rfl
        · exact absurd (hf.symm.trans h) (by decide)
      | false =>
        refine ⟨advanceCount data.length (absorbAll c data), ⟨.ok, none⟩, fun s hs => ?_⟩
        subst hs
        rcases execUpdate_cases data s with ⟨h, -⟩ | ⟨-, h, -⟩ | ⟨-, -, h⟩
        · exact absurd h hd
        · exact absurd (hf.symm.trans h) (by decide)
        · rw [exec_update, h]; rfl
  | digest => exact ⟨_, _, fun s hs => by rw [exec_digest, execDigest_eq, hs]; rfl⟩

/-- Every command answers a next state with one response more and the same `CMD` and `DIN`. -/
theorem exec_next (i : Instr) (s : State) :
    ∃ (c : Context) (r : Response),
      exec i s = .next { ctx := c, cmd := s.cmd, din := s.din, rsp := s.rsp ++ [r] } := by
  obtain ⟨c, r, h⟩ := exec_of_ctx i s.ctx
  exact ⟨c, r, h s rfl⟩

/-- A run of commands goes on with the state the first one answers. -/
theorem runCommands_cons {i : Instr} {s t : State} (h : exec i s = .next t) (p : List Instr) :
    runCommands (i :: p) s = runCommands p t := by rw [runCommands, h]

@[simp] theorem runCommands_nil (s : State) : runCommands [] s = .next s := rfl

/-- A run of a list that is cut in two. -/
theorem runCommands_append {p : List Instr} {s t : State} (h : runCommands p s = .next t)
    (q : List Instr) : runCommands (p ++ q) s = runCommands q t := by
  induction p generalizing s with
  | nil => cases h; rfl
  | cons i p ih =>
    obtain ⟨c, r, hi⟩ := exec_next i s
    rw [runCommands_cons hi] at h
    rw [List.cons_append, runCommands_cons hi, ih h]

/-- What the channels can offer, and what has been taken from them. -/
theorem fetch_cases (s : State) :
    (s.cmd = [] ∧ fetch s = .idle) ∨
    ∃ cw cmd', s.cmd = cw :: cmd' ∧
      ((decode cw s.din = .payloadShort ∧ fetch s = .waiting) ∨
       (decode cw s.din = .illegal ∧ fetch s = .illegal { s with cmd := cmd' }) ∨
       (∃ i din', decode cw s.din = .command i din' ∧
          fetch s = .command i { s with cmd := cmd', din := din' })) := by
  unfold fetch
  cases hc : s.cmd with
  | nil => simp
  | cons cw cmd' =>
    refine .inr ⟨cw, cmd', rfl, ?_⟩
    cases hd : decode cw s.din <;> simp [hd]

/-- What a step can do. -/
theorem step_cases (s : State) :
    (s.cmd = [] ∧ step s = .next s) ∨
    ∃ cw cmd', s.cmd = cw :: cmd' ∧
      ((decode cw s.din = .payloadShort ∧ step s = .next s) ∨
       (decode cw s.din = .illegal ∧
          step s = .next (raise .illegalCommand { s with cmd := cmd' })) ∨
       (∃ i din', decode cw s.din = .command i din' ∧
          step s = exec i { s with cmd := cmd', din := din' })) := by
  unfold step
  rcases fetch_cases s with ⟨h, hf⟩ | ⟨cw, cmd', h, ⟨hd, hf⟩ | ⟨hd, hf⟩ | ⟨i, din', hd, hf⟩⟩ <;> rw [hf]
  · exact .inl ⟨h, rfl⟩
  · exact .inr ⟨cw, cmd', h, .inl ⟨hd, rfl⟩⟩
  · exact .inr ⟨cw, cmd', h, .inr (.inl ⟨hd, rfl⟩)⟩
  · exact .inr ⟨cw, cmd', h, .inr (.inr ⟨i, din', hd, rfl⟩)⟩

/-- A run of the host's machine goes on with the state the first step answers. -/
theorem core_run_succ {s t : State} (h : step s = .next t) (k : Nat) :
    core.run (k + 1) s = core.run k t := by
  have hs : core.step s = .next t := h
  simp only [Host.Core.run, hs]

/-- A run of no steps. -/
@[simp] theorem core_run_zero (s : State) : core.run 0 s = .next s := rfl

end Sys2Proof.Machine
end

