-- ==== Sys2Proof/Laws/Instances.lean ====
section
/-! SUPPORT. What an event does at one instance and at a system of instances, said once
(`60_exceptions.md` R136). -/

namespace Sys2Proof.Machine

/-- Every step answers a next state. -/
theorem step_next (s : State) : ∃ t, step s = .next t := by
  rcases step_cases s with ⟨-, h⟩ | ⟨cw, cmd', -, ⟨-, h⟩ | ⟨-, h⟩ | ⟨i, din', -, h⟩⟩
  · exact ⟨_, h⟩
  · exact ⟨_, h⟩
  · exact ⟨_, h⟩
  · obtain ⟨c, r, hi⟩ := exec_next i { s with cmd := cmd', din := din' }
    exact ⟨_, h.trans hi⟩

@[simp] theorem onEvent_command (s : State) : onEvent .command s = step s := rfl
@[simp] theorem onEvent_hardwareReset (s : State) :
    onEvent .hardwareReset s = .next State.reset := rfl

/-- Every event answers a next state. -/
theorem onEvent_next (e : Event) (s : State) : ∃ t, onEvent e s = .next t := by
  cases e with
  | command => exact step_next s
  | _ => exact ⟨_, rfl⟩

@[simp] theorem runEvents_nil (s : State) : runEvents [] s = .next s := rfl

/-- A list of events goes on with the state the first one answers. -/
theorem runEvents_cons {e : Event} {s t : State} (h : onEvent e s = .next t) (es : List Event) :
    runEvents (e :: es) s = runEvents es t := by rw [runEvents, h]

/-- What an event at instance `k` does to the system: it changes that instance and no other. -/
theorem System.onEvent_eq {n : Nat} {k : Fin n} {e : Event} {sys : System n} {t : State}
    (h : Machine.onEvent e sys[k] = .next t) : System.onEvent k e sys = .next (sys.set k t) := by
  rw [System.onEvent, h]

@[simp] theorem System.runEvents_nil {n : Nat} (sys : System n) :
    System.runEvents [] sys = .next sys := rfl

/-- An interleaving goes on with the system its first event answers. -/
theorem System.runEvents_cons {n : Nat} {k : Fin n} {e : Event} {sys sys' : System n}
    (h : System.onEvent k e sys = .next sys') (order : List (Fin n × Event)) :
    System.runEvents ((k, e) :: order) sys = System.runEvents order sys' := by
  rw [System.runEvents, h]

end Sys2Proof.Machine
end

