-- ==== Sys2Proof/Laws/PerInstr.lean ====
section
/-! SUPPORT. A statement about every instruction, one lemma per constructor: the header word the
encoder writes selects the instruction's row of the opcode map, `(CW & mask) = match`
(`30_encoding.md` R56). -/

namespace Sys2Proof.Laws.HeaderSelectsRow

/-- The header word of the instruction selects its row of R56. -/
def Statement (i : Instr) : Prop := i.header &&& i.maskWord = i.matchWord

theorem reset : Statement .reset := by unfold Statement; decide

theorem update (data : List Byte) : Statement (.update data) := by
  refine BitVec.eq_of_getLsbD_eq fun k hk => ?_
  have hmask : ∀ k : Fin 32, BitVec.getLsbD (0xC0000000 : Word) k.val = decide (30 ≤ k.val) := by decide
  have hm : ∀ k : Fin 32, BitVec.getLsbD (0x40000000 : Word) k.val = decide (k.val = 30) := by decide
  simp only [Instr.header, Instr.maskWord, Instr.matchWord, Instr.payload, BitVec.getLsbD_and,
    BitVec.getLsbD_or, BitVec.getLsbD_setWidth]
  rw [show BitVec.getLsbD (0xC0000000 : Word) k = decide (30 ≤ k) from hmask ⟨k, hk⟩,
    show BitVec.getLsbD (0x40000000 : Word) k = decide (k = 30) from hm ⟨k, hk⟩]
  by_cases h : 30 ≤ k
  · rw [BitVec.getLsbD_of_ge _ _ h]; simp [h]
  · simp [h, show k ≠ 30 by omega]

theorem digest : Statement .digest := by unfold Statement; decide

end Sys2Proof.Laws.HeaderSelectsRow
end

