-- ==== Sys2Proof/Laws/Program.lean ====
section
/-! SUPPORT. Runs of command lists, sending a list on the channels, and bursts
(`20_memory.md` R35, `30_encoding.md` R62). -/

namespace Sys2Proof.Machine

/-- What a run does depends on the context it starts from; `CMD` and `DIN` stay and responses are added
at the end. -/
theorem runCommands_of_ctx (p : List Instr) (c : Context) :
    ∃ (c' : Context) (rs : List Response), ∀ s : State, s.ctx = c →
      runCommands p s = .next { ctx := c', cmd := s.cmd, din := s.din, rsp := s.rsp ++ rs } := by
  induction p generalizing c with
  | nil => exact ⟨c, [], fun s hs => by subst hs; simp⟩
  | cons i p ih =>
    obtain ⟨c₁, r, h₁⟩ := exec_of_ctx i c
    obtain ⟨c₂, rs, h₂⟩ := ih c₁
    refine ⟨c₂, r :: rs, fun s hs => ?_⟩
    rw [runCommands_cons (h₁ s hs), h₂ _ rfl]
    simp

/-- What the channels hold after a list has been sent. -/
theorem sendCommands_eq (p : List Instr) (s : State) :
    sendCommands p s =
      { ctx := s.ctx, cmd := s.cmd ++ p.map Instr.header,
        din := s.din ++ (p.map Instr.payload).flatten, rsp := s.rsp } := by
  induction p generalizing s with
  | nil => apply State.eq_of_fields <;> simp [sendCommands]
  | cons i p ih =>
    show sendCommands p (sendCommand i s) = _
    rw [ih]; simp

/-- The bursts of a payload are the payload in order, each of at most `size` bytes. -/
theorem splitBursts_spec {size : Nat} (hsize : 0 < size) {fuel : Nat} {data : List Byte}
    (h : data.length < fuel) :
    (splitBursts size fuel data).flatten = data ∧ ∀ d ∈ splitBursts size fuel data, d.length ≤ size := by
  induction fuel generalizing data with
  | zero => omega
  | succ n ih =>
    unfold splitBursts
    split
    · simpa
    · obtain ⟨h₁, h₂⟩ := ih (data := data.drop size) (by simp; omega)
      refine ⟨by rw [List.flatten_cons, h₁, List.take_append_drop], fun d hd => ?_⟩
      rcases List.mem_cons.mp hd with rfl | hd
      · simp
      · exact h₂ d hd

end Sys2Proof.Machine
end

