-- ==== Sys2Proof/Laws/Reference.lean ====
section
/-! SUPPORT. COMPRESS chained over the 64-byte pieces of a byte string (`40_block_transform.md` R86). -/

namespace Sys2Proof.Machine

/-- COMPRESS opened once (R82). -/
theorem compress_eq (acc : Accumulator) (blk : Block) :
    compress acc blk = acc.add32 (mixSteps blk acc 64) := by rw [compress]

/-- A string shorter than a block leaves the accumulator. -/
theorem compressAll_short (acc : Accumulator) {l : List Byte} (h : l.length < 64) :
    compressAll acc l = acc := by simp [compressAll, Nat.div_eq_of_lt h, pieces]

/-- A string with a whole block: that block first, then the rest. -/
theorem compressAll_block (acc : Accumulator) {l : List Byte} (h : 64 ≤ l.length) :
    compressAll acc l = compressAll (compress acc (blockOfList l)) (l.drop 64) := by
  obtain ⟨n, hn⟩ : ∃ n, l.length / 64 = n + 1 := ⟨l.length / 64 - 1, by omega⟩
  rw [compressAll, compressAll, List.length_drop, hn, show (l.length - 64) / 64 = n by omega]
  rfl

/-- The first block of a string does not depend on what follows it. -/
theorem blockOfList_append {l : List Byte} (m : List Byte) (h : 64 ≤ l.length) :
    blockOfList (l ++ m) = blockOfList l := by
  refine congrArg Vector.ofFn (funext fun j => ?_)
  rw [List.getD_eq_getElem?_getD, List.getD_eq_getElem?_getD, List.getElem?_append_left (by omega)]

/-- A string cut in two: the whole blocks of the first part, then its rest with the second part. -/
theorem compressAll_append (acc : Accumulator) (l m : List Byte) :
    compressAll acc (l ++ m) = compressAll (compressAll acc l) (l.drop (64 * (l.length / 64)) ++ m) := by
  generalize hn : l.length / 64 = n
  induction n generalizing acc l with
  | zero => rw [compressAll_short acc (by omega : l.length < 64)]; simp
  | succ n ih =>
    have hdrop : (l ++ m).drop 64 = l.drop 64 ++ m := by
      rw [List.drop_append, show 64 - l.length = 0 by omega, List.drop_zero]
    rw [compressAll_block acc (by simp; omega : 64 ≤ (l ++ m).length), blockOfList_append m (by omega),
      compressAll_block acc (by omega : 64 ≤ l.length), hdrop,
      ih _ (l.drop 64) (by simp; omega), List.drop_drop, show 64 + 64 * n = 64 * (n + 1) by omega]

/-- How many zeros pad a message, by cases (`42_digest.md` R103). -/
theorem padZeros_eq (n : Nat) :
    padZeros n = if n % 64 ≤ 55 then 55 - n % 64 else 119 - n % 64 := by
  unfold padZeros; split <;> omega

end Sys2Proof.Machine
end

