-- ==== Sys2Proof/Machine/Assembler.lean ====
section
/-! DEFINITION. The textual form of a command list (`30_encoding.md` R61, the spec's D18) with the
pseudo-instructions of R62, one command a line. What R61 leaves open in the notation is log 18. -/

namespace Sys2Proof.Machine

/-- What one line stands for: a command, or NEW, which is hardware reset and no command word (R62). -/
inductive Action
  | command (i : Instr)
  | new
deriving DecidableEq, Repr

/-- The actions of a program one after another. -/
def runActions : List Action → State → Host.Outcome State Fault Refusal
  | [], s => .next s
  | .new :: p, s => runActions p (hardwareReset s)
  | .command i :: p, s =>
    match exec i s with
    | .next t => runActions p t
    | .fault r => .fault r
    | .refused r => .refused r

namespace Text

/-- The double quote that opens and closes a string payload. -/
def quote : Char := Char.ofNat 34

def isBlank (c : Char) : Bool := c = ' ' || c = '\t'

def skipBlanks (l : List Char) : List Char := l.dropWhile isBlank

/-- Only blanks, or a comment: `;` to the end of the line. -/
def atEnd (l : List Char) : Bool :=
  match skipBlanks l with
  | [] => true
  | c :: _ => c = ';'

def decimalDigit (c : Char) : Option Nat :=
  if '0' ≤ c ∧ c ≤ '9' then some (c.toNat - '0'.toNat) else none

def hexDigit (c : Char) : Option Nat :=
  if '0' ≤ c ∧ c ≤ '9' then some (c.toNat - '0'.toNat)
  else if 'a' ≤ c ∧ c ≤ 'f' then some (c.toNat - 'a'.toNat + 10)
  else if 'A' ≤ c ∧ c ≤ 'F' then some (c.toNat - 'A'.toNat + 10)
  else none

/-- The byte of a printable character's ASCII code. -/
def asciiByte (c : Char) : Option Byte :=
  if 0x20 ≤ c.toNat ∧ c.toNat ≤ 0x7E then some (BitVec.ofNat 8 c.toNat) else none

/-- The bytes of a quoted string after its opening quote, without terminator or escapes. -/
def quotedBytes : List Char → Option (List Byte × List Char)
  | [] => none
  | c :: cs =>
    if c = quote then some ([], cs)
    else
      match asciiByte c, quotedBytes cs with
      | some b, some (bs, rest) => some (b :: bs, rest)
      | _, _ => none

/-- Pairs of hexadecimal digits, a byte each; an odd digit is an error. -/
def hexBytes : List Char → Option (List Byte × List Char)
  | [] => some ([], [])
  | [c] => if (hexDigit c).isSome then none else some ([], [c])
  | c₁ :: c₂ :: cs =>
    match hexDigit c₁, hexDigit c₂ with
    | none, _ => some ([], c₁ :: c₂ :: cs)
    | some _, none => none
    | some h, some l =>
      match hexBytes cs with
      | none => none
      | some (bs, rest) => some (BitVec.ofNat 8 (16 * h + l) :: bs, rest)

/-- A decimal number read on from `n`. -/
def decimal (n : Nat) : List Char → Nat × List Char
  | [] => (n, [])
  | c :: cs =>
    match decimalDigit c with
    | some d => decimal (10 * n + d) cs
    | none => (n, c :: cs)

/-- `<n>*<byte>`: `n` copies of one byte. -/
def repeated (l : List Char) : Option (List Byte × List Char) :=
  match l with
  | [] => none
  | c :: _ =>
    if (decimalDigit c).isNone then none
    else
      match decimal 0 l with
      | (n, '*' :: cs) =>
        match hexBytes cs with
        | some ([b], rest) => some (List.replicate n b, rest)
        | _ => none
      | _ => none

/-- The three payload notations of R61. -/
def payload (l : List Char) : Option (List Byte × List Char) :=
  match l with
  | 'h' :: 'e' :: 'x' :: ':' :: cs => hexBytes cs
  | c :: cs => if c = quote then quotedBytes cs else repeated l
  | [] => none

/-- The actions of a mnemonic that has a payload. -/
def withPayload (meaning : List Byte → List Instr) (l : List Char) : Option (List Action) :=
  match payload (skipBlanks l) with
  | some (data, rest) => if atEnd rest then some ((meaning data).map .command) else none
  | none => none

/-- One line: a command, a pseudo-instruction, or nothing. -/
def line (l : List Char) : Option (List Action) :=
  if atEnd l then some []
  else
    let name := (skipBlanks l).takeWhile Char.isAlpha
    let rest := (skipBlanks l).dropWhile Char.isAlpha
    if name = ['R', 'E', 'S', 'E', 'T'] then
      if atEnd rest then some [.command .reset] else none
    else if name = ['D', 'I', 'G', 'E', 'S', 'T'] then
      if atEnd rest then some [.command .digest] else none
    else if name = ['N', 'E', 'W'] then
      if atEnd rest then some [.new] else none
    else if name = ['U', 'P', 'D', 'A', 'T', 'E'] then withPayload updateBursts rest
    else if name = ['H', 'A', 'S', 'H'] then withPayload hashCommands rest
    else none

/-- A text cut at its line ends. -/
def lines : List Char → List (List Char)
  | [] => [[]]
  | c :: cs =>
    match lines cs with
    | [] => [[c]]
    | l :: ls => if c = '\n' then [] :: l :: ls else (c :: l) :: ls

/-- The actions of lines in order, none where one line is not of the form. -/
def assembleLines : List (List Char) → Option (List Action)
  | [] => some []
  | l :: ls =>
    match line l, assembleLines ls with
    | some p, some q => some (p ++ q)
    | _, _ => none

/-- A program's text to its actions (R61, R62). -/
def assemble (text : List Char) : Option (List Action) := assembleLines (lines text)

end Text

end Sys2Proof.Machine
end

