-- ==== Sys2Proof/Tests/Slice0.lean ====
section
/-! SUPPORT. The model's own tests, each with the vector of `95_test_vectors.md` or the rule its expected
value comes from, and for every statement with hypotheses a witness that meets them all. -/

namespace Sys2Proof.Tests

open Sys2Proof Sys2Proof.Machine

/-! ## Helpers -/

/-- A context with the initial accumulator that holds these bytes (fewer than 64) in the buffer. -/
def holding (data : List Byte) (count : Word64) (fin : Bool) : Context :=
  { fin := fin, fill := Fin.ofNat 64 data.length, count := count
    buf := ((List.range data.length).zip data).filter fun cell => decide (cell.2 ≠ 0x00)
    acc := initialAccumulator }

/-- An instance with a context, header words and payload bytes. -/
def inst (ctx : Context) (cmd : List Word) (din : List Byte) : Machine.State :=
  { ctx := ctx, cmd := cmd, din := din, rsp := [] }

/-- A step that answers a next state with a property. -/
def answers (o : Host.Outcome Machine.State Fault Refusal) (p : Machine.State → Bool) : Bool :=
  match o with
  | .next t => p t
  | .fault _ => false
  | .refused _ => false

/-- The bytes of "abc". -/
def abc : List Byte := [0x61, 0x62, 0x63]

/-- Two UPDATEs of "abc" that are next on the channels, the second one byte short. -/
def pendingUpdates : Machine.State := inst Context.initial [0x40000003, 0x40000003] (abc ++ [0x61, 0x62])

/-! ## WellFormed (R53, R55): the check refuses a payload one byte too long, and no other command -/

theorem test_wellFormed_refuses_long_payload :
    (Instr.update (List.replicate (2 ^ 30) 0x00)).wellFormed = false := by
  rw [Instr.wellFormed, List.length_replicate]; decide

theorem test_wellFormed_takes_longest_payload :
    (Instr.update (List.replicate (2 ^ 30 - 1) 0x00)).wellFormed = true := by
  rw [Instr.wellFormed, List.length_replicate]; decide

theorem test_wellFormed_control :
    Instr.reset.wellFormed = true ∧ Instr.digest.wellFormed = true ∧
    (Instr.update []).wellFormed = true := by decide

/-! ## Decoding words written out bit by bit (R51 to R57, the `encoding` rows of the opcode table) -/

theorem test_decode_reset :
    decode 0b00_000000000000000000000000000000 [0x61] = .command .reset [0x61] := by decide

theorem test_decode_update :
    decode 0b01_000000000000000000000000000011 (abc ++ [0x64]) = .command (.update abc) [0x64] := by
  decide

theorem test_decode_update_empty :
    decode 0b01_000000000000000000000000000000 abc = .command (.update []) abc := by decide

theorem test_decode_update_short :
    decode 0b01_000000000000000000000000000011 [0x61, 0x62] = .payloadShort := by decide

theorem test_decode_digest :
    decode 0b10_000000000000000000000000000000 [] = .command .digest [] := by decide

theorem test_decode_reserved :
    decode 0b00_000000000000000000000000000001 [] = .illegal ∧
    decode 0b00_111111111111111111111111111111 [] = .illegal ∧
    decode 0b10_000000000000000000000000000001 [] = .illegal ∧
    decode 0b11_000000000000000000000000000000 [] = .illegal ∧
    decode 0b11_111111111111111111111111111111 [] = .illegal := by decide

/-- `len` is all thirty low bits (section 7, `0x7FFFFFFF`). -/
theorem test_longest_length : payloadLength (decodeHeader 0x7FFFFFFF) = 1073741823 := by decide

/-- P1 of section 8: headers and payloads. -/
theorem test_encode :
    encode .reset = (0x00000000, []) ∧ encode (.update abc) = (0x40000003, abc) ∧
    encode .digest = (0x80000000, []) := by decide

theorem test_tableWord :
    decodeTableWord 32 0x00000000 = some .reset ∧
    decodeTableWord 32 0x40000002 = some (.update [0x00, 0x00]) ∧
    decodeTableWord 32 0x80000000 = some .digest ∧ decodeTableWord 32 0xC0000000 = none := by decide

/-! ## Primitive operations (section 4) -/

theorem test_mix_truth_table :
    mix 0 0xAAAAAAAA 0xCCCCCCCC 0xF0F0F0F0 = 0xD8D8D8D8 ∧
    mix 1 0xAAAAAAAA 0xCCCCCCCC 0xF0F0F0F0 = 0xACACACAC ∧
    mix 2 0xAAAAAAAA 0xCCCCCCCC 0xF0F0F0F0 = 0x96969696 ∧
    mix 3 0xAAAAAAAA 0xCCCCCCCC 0xF0F0F0F0 = 0x63636363 := by decide

theorem test_rotl32 :
    rotl32 0x80000000 1 = 0x00000001 ∧ rotl32 0x00000001 31 = 0x80000000 ∧
    rotl32 0x12345678 7 = 0x1A2B3C09 ∧ rotl32 0xDEADBEEF 16 = 0xBEEFDEAD := by decide

theorem test_le32 :
    le32 0x61 0x62 0x63 0x80 = 0x80636261 ∧
    leBytes32 0x98500190 = #v[0x90, 0x01, 0x50, 0x98] := by decide

theorem test_lengthTail :
    lengthTail 43 = #v[0x58, 0x01, 0x00, 0x00, 0x00, 0x00, 0x00, 0x00] ∧
    lengthTail 0x20000000 = #v[0x00, 0x00, 0x00, 0x00, 0x01, 0x00, 0x00, 0x00] ∧
    lengthTail 0x0123456789ABCDEF = #v[0x78, 0x6f, 0x5e, 0x4d, 0x3c, 0x2b, 0x1a, 0x09] ∧
    lengthTail 0x2000000000000001 = #v[0x08, 0x00, 0x00, 0x00, 0x00, 0x00, 0x00, 0x00] := by decide

/-! ## COMPRESS (section 2) -/

/-- The bytes 00 01 .. 3f from the initial accumulator: sixteen distinct message words (section 2.3). -/
theorem test_compress_distinct_words :
    compress initialAccumulator (Vector.ofFn fun j => BitVec.ofNat 8 j.val) =
      ⟨0x9144D9CA, 0xD901E4C9, 0x72FC5B38, 0x625FF51E⟩ := by decide +kernel

/-- Every addition wraps (section 2.3, second row). -/
theorem test_compress_all_ones :
    compress ⟨0xFFFFFFFF, 0xFFFFFFFF, 0xFFFFFFFF, 0xFFFFFFFF⟩ (Vector.replicate 64 0xFF) =
      ⟨0x6CBA9129, 0x29FFD12A, 0x8B9BB7D3, 0xA9A0A3C1⟩ := by decide +kernel

/-- The block of the empty message after step 0 and after step 32 (section 2.1). -/
theorem test_mixSteps_trace :
    let blk := blockOfList [0x80]
    mixSteps blk initialAccumulator 1 = ⟨0x10325476, 0xA5202774, 0xEFCDAB89, 0x98BADCFE⟩ ∧
    mixSteps blk initialAccumulator 33 = ⟨0xAE7813DB, 0xDF63EAA1, 0xA2205F1F, 0x1C31C384⟩ := by
  decide +kernel

/-! ## RESET (R115) -/

theorem test_reset_clears :
    answers (exec .reset (inst (holding abc 3 true) [] [])) (fun t =>
      decide (t.ctx = Context.initial) && decide (t.rsp = [⟨.ok, none⟩])) = true := by decide

/-! ## UPDATE (P1, P4 and section 6) -/

theorem test_update_buffers :
    answers (step (inst Context.initial [0x40000003] abc)) (fun t =>
      decide (t = { inst (holding abc 3 false) [] [] with rsp := [⟨.ok, none⟩] })) = true := by decide

/-- The 64th byte runs COMPRESS at once, and `COUNT` wraps (P4 command 2 with section 6's counter). -/
theorem test_update_crosses_block :
    answers (exec (.update [0x17])
        (inst (holding (List.replicate 63 0x17) 0xFFFFFFFFFFFFFFFF false) [] [])) (fun t =>
      decide (t.ctx.fill = 0) && decide (t.ctx.count = 0) &&
      decide (t.ctx.acc = ⟨0x41E8C0E0, 0x22327D25, 0xA8B92074, 0x97CF9454⟩)) = true := by decide +kernel

/-! ## DIGEST (P1, section 5) -/

/-- "abc" (S3): one final block. -/
theorem test_digest_one_block :
    answers (exec .digest (inst (holding abc 3 false) [] [])) (fun t =>
      decide (t.ctx.fin = true) &&
      decide (t.rsp = [⟨.ok, some 0x727FE1287D3F96D6B04FD23C98500190⟩])) = true := by decide +kernel

/-- 56 bytes of 0x17: two final blocks, `301cf56682ea1d15ac22bbb5729c91c0`. -/
theorem test_digest_two_blocks :
    answers (exec .digest (inst (holding (List.replicate 56 0x17) 56 false) [] [])) (fun t =>
      decide (digestBytes t.ctx.acc =
        #v[0x30, 0x1c, 0xf5, 0x66, 0x82, 0xea, 0x1d, 0x15,
           0xac, 0x22, 0xbb, 0xb5, 0x72, 0x9c, 0x91, 0xc0])) = true := by decide +kernel

/-! ## Exceptions (section 7) -/

theorem test_update_when_finished :
    answers (step (inst (holding abc 3 true) [0x40000001] [0x61])) (fun t =>
      decide (t = { inst (holding abc 3 true) [] [] with rsp := [⟨.alreadyFinished, none⟩] })) = true := by
  decide

theorem test_reserved_word :
    answers (step (inst (holding abc 3 false) [0xC0000000] [0x61])) (fun t =>
      decide (t = { inst (holding abc 3 false) [] [0x61] with rsp := [⟨.illegalCommand, none⟩] })) =
      true := by decide

/-! ## The first instruction after reset -/

theorem test_withFetchWord :
    answers (step (State.reset.withFetchWord 32 0x40000002)) (fun t =>
      decide (t.ctx.fill = 2) && decide (t.cmd = []) && decide (t.din = [])) = true := by decide

/-! ## Several instances (R136) -/

/-- Hardware reset of instance 0 clears it and leaves instance 1. -/
theorem test_hardware_reset_of_one_instance :
    let sys : System 2 := #v[inst (holding abc 3 true) [] [], inst (holding abc 3 false) [] [0x61]]
    System.runEvents [(0, .hardwareReset)] sys =
      .next #v[State.reset, inst (holding abc 3 false) [] [0x61]] := rfl

/-! ## The textual form (R61, R62) -/

theorem test_assemble_program :
    Text.assemble "RESET\nUPDATE \"abc\" ; three bytes\nDIGEST".toList =
      some [.command .reset, .command (.update abc), .command .digest] := by decide

theorem test_assemble_payloads :
    Text.assemble "UPDATE hex:1717\nUPDATE 3*17\nUPDATE hex:".toList =
      some [.command (.update [0x17, 0x17]), .command (.update [0x17, 0x17, 0x17]),
        .command (.update [])] ∧
    Text.assemble "UPDATE hex:171".toList = none ∧
    Text.assemble "HASH \"\"".toList = some [.command .reset, .command (.update []), .command .digest] ∧
    Text.assemble "NEW".toList = some [.new] := by decide

/-! ## Witnesses: for every statement with hypotheses, values that meet them, clause by clause -/

theorem witness_HeaderWordSelectsItsRow :
    opField 0xC0000000 = 0b11 ∧ opField 0xFFFFFFFF = 0b11 := by decide

theorem witness_DecodeOfEncodeIsTheCommand :
    Instr.reset.wellFormed = true ∧ Instr.digest.wellFormed = true ∧
    (Instr.update []).wellFormed = true ∧ (Instr.update abc).wellFormed = true := by decide

theorem witness_DecodeOfEncodeIsTheCommand_longest :
    (Instr.update (List.replicate Config.maxBurst 0x00)).wellFormed = true := by
  rw [Instr.wellFormed, List.length_replicate]; decide

theorem witness_DecodedCommandEncodesBack :
    decode 0x00000000 [] = .command .reset [] ∧
    decode 0x40000000 abc = .command (.update []) abc ∧
    decode 0x40000003 abc = .command (.update abc) [] ∧
    decode 0x80000000 abc = .command .digest abc := by decide

/-- A reserved word of each kind, the first and the last of it, waits on `CMD`. -/
theorem witness_ReservedWordRaisesIllegalCommand :
    (inst Context.initial [0xC0000000, 0xFFFFFFFF] []).cmd = 0xC0000000 :: [0xFFFFFFFF] ∧
    opField 0xC0000000 = 0b11 ∧ opField 0xFFFFFFFF = 0b11 ∧
    (opField 0x00000001 = 0b00 ∧ argField 0x00000001 ≠ 0) ∧
    (opField 0x3FFFFFFF = 0b00 ∧ argField 0x3FFFFFFF ≠ 0) ∧
    (opField 0x80000001 = 0b10 ∧ argField 0x80000001 ≠ 0) ∧
    (opField 0xBFFFFFFF = 0b10 ∧ argField 0xBFFFFFFF ≠ 0) := by decide

theorem witness_StepRunsDecodedCommand :
    pendingUpdates.cmd = 0x40000003 :: [0x40000003] ∧
    decode 0x40000003 pendingUpdates.din = .command (.update abc) [0x61, 0x62] := by decide

theorem witness_IdleBlockHoldsItsState : State.reset.cmd = [] := rfl

/-- Two of three bytes are there: no byte more is still short, one more is enough. -/
theorem witness_ShortUpdateWaitsForItsPayload :
    (inst Context.initial [0x40000003] [0x61, 0x62]).cmd = 0x40000003 :: [] ∧
    decodeHeader 0x40000003 = .update 3 ∧
    (inst Context.initial [0x40000003] [0x61, 0x62]).din.length < (3 : BitVec 30).toNat ∧
    2 + ([] : List Byte).length < (3 : BitVec 30).toNat ∧
    (3 : BitVec 30).toNat ≤ 2 + ([0x63] : List Byte).length ∧
    (3 : BitVec 30).toNat ≤ 2 + abc.length := by decide

theorem witness_StepTakesExactlyItsPayload :
    pendingUpdates.cmd = 0x40000003 :: [0x40000003] ∧
    payloadLength (decodeHeader 0x40000003) ≤ pendingUpdates.din.length ∧
    payloadLength (decodeHeader 0x40000005) = pendingUpdates.din.length ∧
    payloadLength (decodeHeader 0xC0000000) ≤ State.reset.din.length := by decide

theorem witness_UpdateAnswers :
    ([] : List Byte) = [] ∧ (abc ≠ [] ∧ (holding abc 3 true).fin = true) ∧
    (abc ≠ [] ∧ (holding abc 3 false).fin = false) := by decide

theorem witness_AbsorbStoresOneByte :
    Context.initial.fill.val = 0 ∧ (holding (List.replicate 62 0x17) 62 false).fill.val < 63 ∧
    (holding (List.replicate 63 0x17) 63 false).fill.val = 63 := by decide

theorem witness_UpdateAdvancesCount :
    State.reset.ctx.fin = false ∧ (inst (holding abc 3 true) [] []).ctx.fin = true := by decide

theorem witness_UpdateEqualsItsBulkForm :
    (inst (holding (List.replicate 63 0x17) 63 false) [] []).ctx.fin = false := by decide

theorem witness_AnyPartitionGivesTheSameContext : State.reset.ctx.fin = false := rfl

/-- An UPDATE of three bytes from index 62: indices 62, 63 and 0 are stored to, index 1 is not. -/
theorem witness_UpdateFrame :
    (∃ t, exec (.update abc) (inst (holding (List.replicate 62 0x17) 62 false) [] []) = .next t) ∧
    (∀ k < abc.length, (1 : Fin 64).val ≠ (62 + k) % 64) ∧
    abc.length ≤ 0 + 64 ∧ (62 : Fin 64).val = (62 + 0) % 64 ∧ (0 : Fin 64).val = (62 + 2) % 64 :=
  ⟨⟨_, rfl⟩, by decide, by decide, by decide, by decide⟩

theorem witness_UpdateFrame_unchanged :
    (∃ t, exec (.update abc) (inst (holding abc 3 true) [] []) = .next t) ∧
    (inst (holding abc 3 true) [] []).ctx.fin = true ∧
    ∃ t, exec (.update []) State.reset = .next t := ⟨⟨_, rfl⟩, rfl, ⟨_, rfl⟩⟩

theorem witness_AccumulatorNeedsABlockBoundary :
    (holding (List.replicate 62 0x17) 62 false).fill.val + ([0x17] : List Byte).length < 64 ∧
    (holding (List.replicate 63 0x17) 63 false).fill.val + ([] : List Byte).length < 64 ∧
    (holding (List.replicate 63 0x17) 63 true).fin = true := by decide

theorem witness_RoundOneIsASelect : 0 < 32 ∧ 31 < 32 := by decide

theorem witness_LaterRoundsMix : 0 < 32 ∧ 31 < 32 := by decide

theorem witness_TablesOfTheTransform : 0 < 64 ∧ 63 < 64 := by decide

theorem witness_RotationIsCircular :
    (1 ≤ 1 ∧ 1 ≤ 31 ∧ 0 < 32) ∧ (1 ≤ 31 ∧ 31 ≤ 31 ∧ 31 < 32) := by decide

theorem witness_CompressRunsSixtyFourSteps :
    0 < 64 ∧ roundOf 0 = 0 ∧ 63 < 64 ∧ roundOf 63 = 3 := by decide

/-- `FILL` 0 and 55 take one final block, 56 and 63 take two. -/
theorem witness_FirstDigestFinalizes :
    State.reset.ctx.fin = false ∧ State.reset.ctx.fill.val ≤ 55 ∧
    (holding (List.replicate 55 0x17) 55 false).fin = false ∧
    (holding (List.replicate 55 0x17) 55 false).fill.val ≤ 55 ∧
    (holding (List.replicate 56 0x17) 56 false).fin = false ∧
    ¬(holding (List.replicate 56 0x17) 56 false).fill.val ≤ 55 ∧
    (holding (List.replicate 63 0x17) 63 false).fin = false ∧
    ¬(holding (List.replicate 63 0x17) 63 false).fill.val ≤ 55 := by decide

theorem witness_LastBlockEndsInTheBitLength : 0 < 8 ∧ 7 < 8 := by decide

theorem witness_DigestSerializesTheAccumulator : 0 < 4 ∧ 3 < 4 ∧ 0 < 16 ∧ 15 < 16 := by decide

theorem witness_DigestFrame : (inst (holding abc 3 true) [] []).ctx.fin = true := rfl

theorem witness_DigestIsRepeatable :
    ∀ i ∈ [Instr.update abc, Instr.update [], Instr.digest], i ≠ Instr.reset := by decide

theorem witness_FailingCommandsChangeNothing :
    exec (.update abc) (inst (holding abc 3 true) [] []) =
      .next { inst (holding abc 3 true) [] [] with rsp := [] ++ [⟨.alreadyFinished, none⟩] } ∧
    Status.alreadyFinished ≠ Status.ok := ⟨rfl, by decide⟩

theorem witness_FailingCommandsChangeNothing_step :
    step (inst (holding abc 3 false) [0xC0000000] []) =
      .next { inst (holding abc 3 false) [] [] with rsp := [] ++ [⟨.illegalCommand, none⟩] } ∧
    Status.illegalCommand ≠ Status.ok := ⟨rfl, by decide⟩

theorem witness_AlreadyFinishedExactly :
    abc ≠ [] ∧ (inst (holding abc 3 true) [] []).ctx.fin = true ∧
    Status.alreadyFinished.code = 1 := by decide

/-- A state for each of the four checks of R132. -/
theorem witness_ChecksComeInOrder :
    (decodeHeader 0xC0000000 = .illegal ∧ payloadLength (decodeHeader 0xC0000000) ≤ 0) ∧
    (decodeHeader 0x40000000 = .update 0 ∧ payloadLength (decodeHeader 0x40000000) ≤ 0) ∧
    (decodeHeader 0x40000001 ≠ .update 0 ∧ opField 0x40000001 = 0b01 ∧
      (inst (holding abc 3 true) [0x40000001] [0x61]).cmd = 0x40000001 :: [] ∧
      (inst (holding abc 3 true) [0x40000001] [0x61]).ctx.fin = true ∧
      payloadLength (decodeHeader 0x40000001) ≤
        (inst (holding abc 3 true) [0x40000001] [0x61]).din.length) ∧
    (opField 0x80000000 ≠ 0b01 ∧ payloadLength (decodeHeader 0x80000000) ≤ 0) := by decide

/-- RESET lowers `FIN`, and DIGEST raises it. -/
theorem witness_OnlyResetAndDigestMoveThePhase :
    (∃ t, onEvent .command (inst (holding abc 3 true) [0x00000000] []) = .next t ∧
      (holding abc 3 true).fin = true ∧ t.ctx.fin = false) ∧
    (∃ t, onEvent .hardwareReset (inst (holding abc 3 true) [] []) = .next t ∧ t.ctx.fin = false) ∧
    (∃ t, onEvent .command (inst (holding abc 3 false) [0x80000000] []) = .next t ∧
      (holding abc 3 false).fin = false ∧ t.ctx.fin = true) :=
  ⟨⟨_, rfl, rfl, rfl⟩, ⟨_, rfl, rfl⟩, ⟨_, rfl, rfl, rfl⟩⟩

theorem witness_EveryEventKeepsWellFormed :
    (inst (holding abc 3 false) [0x40000001] [0x61]).wf ∧
    ∃ t, onEvent .command (inst (holding abc 3 false) [0x40000001] [0x61]) = .next t :=
  ⟨by decide, ⟨_, rfl⟩⟩

/-- Two contexts with different bytes behind `FILL`. -/
theorem witness_DontCareBytesAreNeverSeen :
    (holding abc 3 false).Agree { holding abc 3 false with buf := (holding abc 3 false).buf.write 3 0x17 } ∧
    (holding abc 3 false).buf ≠ (holding abc 3 false).buf.write 3 0x17 :=
  ⟨⟨rfl, rfl, rfl, rfl, by decide⟩, by decide⟩

theorem witness_ChannelsRunTheCommandList :
    (∀ i ∈ [Instr.reset, Instr.update abc, Instr.digest], i.wellFormed = true) ∧
    State.reset.cmd = [] ∧ State.reset.din = [] := by decide

theorem witness_EachInstanceHasItsOwnEvents : (1 : Fin 2) ≠ 0 ∧ (0 : Fin 2) ≠ 1 := by decide

theorem witness_BurstsCoverALongUpdate : State.reset.ctx.fin = false := rfl

end Sys2Proof.Tests
end

namespace Sys2Proof.Machine

/-- The bits of a left rotation (R8): the top `s` bits of `x` come in below, the others move up. -/
theorem rotl32_getLsbD (x : Word) {s i : Nat} (h1 : 1 ≤ s) (h2 : s ≤ 31) (hi : i < 32) :
    (rotl32 x s).getLsbD i = if i < s then x.getLsbD (32 - s + i) else x.getLsbD (i - s) := by
  rw [rotl32_eq_rotateLeft x h1 h2, BitVec.getLsbD_rotateLeft_of_le (by omega), Bool.cond_decide]
  simp [hi]

/-- Settles O25: bit `j` moves up by `s`, or wraps round when `j + s` reaches the word's width. -/
theorem rotationIsCircular : Obligations.RotationIsCircular := by
  intro x s j h1 h2 hj
  rw [rotl32_getLsbD x h1 h2 (Nat.mod_lt _ (by decide))]
  by_cases hwrap : j + s < 32
  · have hmod : (j + s) % 32 = j + s := Nat.mod_eq_of_lt hwrap
    rw [hmod, if_neg (by omega), Nat.add_sub_cancel]
  · have hmod : (j + s) % 32 = j + s - 32 := by omega
    rw [hmod, if_pos (by omega), show 32 - s + (j + s - 32) = j by omega]

end Sys2Proof.Machine

namespace Sys2Proof.Machine

/-! ## What a command does to the context, as a function -/

/-- The context a command leaves, from the context it starts in. `exec_eq` ties it to `exec`. -/
def contextAfter : Instr → Context → Context
  | .reset, _ => Context.initial
  | .update data, c => if c.fin then c else advanceCount data.length (absorbAll c data)
  | .digest, c => if c.fin then c else finalize c

/-- The response a command gives, from the context it starts in. `exec_eq` ties it to `exec`. -/
def responseTo : Instr → Context → Response
  | .reset, _ => ⟨.ok, none⟩
  | .update data, c => ⟨if c.fin ∧ data ≠ [] then .alreadyFinished else .ok, none⟩
  | .digest, c => ⟨.ok, some (doutOf (digestBytes (contextAfter .digest c).acc))⟩

@[simp] theorem contextAfter_reset (c : Context) : contextAfter .reset c = Context.initial := rfl

/-- UPDATE in phase ABSORBING absorbs its payload and advances `COUNT` (R90). -/
theorem contextAfter_update_absorbing (data : List Byte) {c : Context} (hf : c.fin = false) :
    contextAfter (.update data) c = advanceCount data.length (absorbAll c data) := by
  rw [contextAfter, hf, if_neg (by decide)]

/-- UPDATE in phase FINISHED writes nothing (R94). -/
theorem contextAfter_update_finished (data : List Byte) {c : Context} (hf : c.fin = true) :
    contextAfter (.update data) c = c := by rw [contextAfter, if_pos hf]

/-- An empty UPDATE writes nothing (R94). -/
@[simp] theorem contextAfter_update_nil (c : Context) : contextAfter (.update []) c = c := by
  cases hf : c.fin with
  | true => exact contextAfter_update_finished [] hf
  | false =>
    rw [contextAfter_update_absorbing [] hf]
    apply Context.eq_of_fields <;> simp [zext64]

/-- DIGEST in phase ABSORBING finalizes (R100). -/
theorem contextAfter_digest_absorbing {c : Context} (hf : c.fin = false) :
    contextAfter .digest c = finalize c := by rw [contextAfter, hf, if_neg (by decide)]

/-- DIGEST in phase FINISHED writes nothing (R106). -/
theorem contextAfter_digest_finished {c : Context} (hf : c.fin = true) :
    contextAfter .digest c = c := by rw [contextAfter, if_pos hf]

/-- UPDATE leaves the phase. -/
@[simp] theorem contextAfter_update_fin (data : List Byte) (c : Context) :
    (contextAfter (.update data) c).fin = c.fin := by
  cases hf : c.fin with
  | true => rw [contextAfter_update_finished data hf, hf]
  | false => rw [contextAfter_update_absorbing data hf, advanceCount_fin, absorbAll_fin, hf]

/-- DIGEST leaves phase FINISHED. -/
@[simp] theorem contextAfter_digest_fin (c : Context) : (contextAfter .digest c).fin = true := by
  cases hf : c.fin with
  | true => rw [contextAfter_digest_finished hf, hf]
  | false => rw [contextAfter_digest_absorbing hf, finalize_fin]

/-- What every command answers: one next state, the context and the response a function of the context
before, and `CMD` and `DIN` as they were. -/
theorem exec_eq (i : Instr) (s : State) :
    exec i s = .next { s with ctx := contextAfter i s.ctx, rsp := s.rsp ++ [responseTo i s.ctx] } := by
  cases i with
  | reset => rfl
  | digest => rw [exec_digest, execDigest_eq]; rfl
  | update data =>
    rw [exec_update]
    rcases execUpdate_cases data s with ⟨hd, h⟩ | ⟨hd, hf, h⟩ | ⟨hd, hf, h⟩
    · rw [h, hd, contextAfter_update_nil, responseTo, if_neg (by simp)]; rfl
    · rw [h, contextAfter_update_finished data hf, responseTo, if_pos ⟨hf, hd⟩]; rfl
    · rw [h, contextAfter_update_absorbing data hf, responseTo, if_neg (by simp [hf])]; rfl

/-- The state a command answers, read off its answer. -/
theorem eq_of_exec_next {i : Instr} {s t : State} (h : exec i s = .next t) :
    t = { s with ctx := contextAfter i s.ctx, rsp := s.rsp ++ [responseTo i s.ctx] } :=
  (Host.Outcome.next.inj ((exec_eq i s).symm.trans h)).symm

/-! ## The invariant: canonical buffer, `FILL = COUNT mod 64`, digests only with OK -/

theorem Context.wf_initial : Context.initial.wf := ⟨Memory.wf_nil, by decide⟩

/-- Settles O42: the context is `S0` and no response waits. -/
theorem resetStateIsWellFormed : Obligations.ResetStateIsWellFormed :=
  ⟨Context.wf_initial, by intro r hr; cases hr⟩

/-- UPDATE's two writes together keep the invariant: `FILL` and `COUNT` both advance by the length, and
64 divides the modulus of `COUNT` (R24). -/
theorem Context.wf_advanceCount_absorbAll {c : Context} (hc : c.wf) (data : List Byte) :
    (advanceCount data.length (absorbAll c data)).wf := by
  obtain ⟨hbuf, hfill⟩ := hc
  refine ⟨absorbAll_wf hbuf data, ?_⟩
  have hlen := zext64_toNat_mod data.length
  rw [advanceCount_fill, advanceCount_count, absorbAll_count, absorbAll_fill_val, BitVec.toNat_add]
  omega

theorem Context.wf_finalize {c : Context} (hc : c.wf) : (finalize c).wf := by
  simpa only [Context.wf, finalize_buf, finalize_fill, finalize_count] using hc

/-- Every command keeps the context well formed. -/
theorem Context.wf_contextAfter (i : Instr) {c : Context} (hc : c.wf) : (contextAfter i c).wf := by
  cases i with
  | reset => exact Context.wf_initial
  | update data =>
    cases hf : c.fin with
    | true => rwa [contextAfter_update_finished data hf]
    | false =>
      rw [contextAfter_update_absorbing data hf]
      exact Context.wf_advanceCount_absorbAll hc data
  | digest =>
    cases hf : c.fin with
    | true => rwa [contextAfter_digest_finished hf]
    | false => rw [contextAfter_digest_absorbing hf]; exact Context.wf_finalize hc

/-- A command's response carries a digest only with status OK: DIGEST alone gives one (R59). -/
theorem Response.wf_responseTo (i : Instr) (c : Context) : (responseTo i c).wf := by
  cases i with
  | reset => exact fun _ => rfl
  | update data => exact fun _ => rfl
  | digest => exact fun h => absurd rfl h

/-- One well-formed response more keeps the responses well formed. -/
theorem Response.wf_append {rs : List Response} (hrs : ∀ r ∈ rs, r.wf) {r : Response} (hr : r.wf) :
    ∀ r' ∈ rs ++ [r], r'.wf := by
  intro r' hr'
  rcases List.mem_append.mp hr' with h | h
  · exact hrs r' h
  · rwa [List.mem_singleton.mp h]

theorem State.wf_exec {i : Instr} {s t : State} (hs : s.wf) (h : exec i s = .next t) : t.wf := by
  obtain ⟨hctx, hrsp⟩ := hs
  rw [eq_of_exec_next h]
  exact ⟨Context.wf_contextAfter i hctx, Response.wf_append hrsp (Response.wf_responseTo i s.ctx)⟩

/-- A step keeps the invariant; what it takes from `CMD` and `DIN` is no part of it. -/
theorem State.wf_step {s t : State} (hs : s.wf) (h : step s = .next t) : t.wf := by
  rcases step_cases s with ⟨-, hstep⟩ | ⟨cw, cmd', -, ⟨-, hstep⟩ | ⟨-, hstep⟩ | ⟨i, din', -, hstep⟩⟩
  · cases hstep.symm.trans h; exact hs
  · cases hstep.symm.trans h; exact hs
  · cases hstep.symm.trans h
    exact ⟨hs.1, Response.wf_append hs.2 fun _ => rfl⟩
  · exact State.wf_exec (s := { s with cmd := cmd', din := din' }) hs (hstep.symm.trans h)

/-- Settles O41, event by event: the issuer's events add no response and leave the context. -/
theorem everyEventKeepsWellFormed : Obligations.EveryEventKeepsWellFormed := by
  intro e s t hs h
  cases e with
  | hardwareReset => cases h; exact resetStateIsWellFormed
  | header cw => cases h; exact hs
  | payload bytes => cases h; exact hs
  | takeResponse => cases h; exact ⟨hs.1, fun r hr => hs.2 r (List.mem_of_mem_tail hr)⟩
  | command => exact State.wf_step hs h

/-! ## The bytes of `BUF` at and above `FILL` are never read -/

theorem Context.Agree.refl (c : Context) : c.Agree c := ⟨rfl, rfl, rfl, rfl, fun _ _ => rfl⟩

/-- A byte stored at `FILL` makes one more index agree; at `FILL = 63` that is the whole buffer, so
COMPRESS gets the same block. -/
theorem Context.Agree.absorb {c₁ c₂ : Context} (h : c₁.Agree c₂) (x : Byte) :
    (absorb c₁ x).Agree (absorb c₂ x) := by
  have hread : ∀ j : Fin 64, j ≤ c₁.fill →
      (c₁.buf.write c₁.fill x).read j = (c₂.buf.write c₁.fill x).read j := by
    intro j hj
    by_cases hjf : j = c₁.fill
    · simp [hjf]
    · rw [Memory.read_write_other _ _ hjf, Memory.read_write_other _ _ hjf,
        h.buf j (lt_of_le_of_ne hj hjf)]
  refine ⟨?_, ?_, ?_, ?_, fun j hj => ?_⟩
  · rw [absorb_acc, absorb_acc, ← h.acc, ← h.fill]
    split
    · next hfull => rw [block_congr fun j => hread j (by omega)]
    · rfl
  · rw [absorb_count, absorb_count, h.count]
  · rw [absorb_fill, absorb_fill, h.fill]
  · rw [absorb_fin, absorb_fin, h.fin]
  · rw [absorb_buf, absorb_buf, ← h.fill]
    have hval := absorb_fill_val c₁ x
    exact hread j (by omega)

theorem Context.Agree.absorbAll {c₁ c₂ : Context} (h : c₁.Agree c₂) (data : List Byte) :
    (absorbAll c₁ data).Agree (absorbAll c₂ data) := by
  induction data generalizing c₁ c₂ with
  | nil => exact h
  | cons x data ih => exact ih (h.absorb x)

theorem Context.Agree.advanceCount {c₁ c₂ : Context} (h : c₁.Agree c₂) (n : Nat) :
    (advanceCount n c₁).Agree (advanceCount n c₂) := by
  refine ⟨h.acc, ?_, h.fill, h.fin, h.buf⟩
  rw [advanceCount_count, advanceCount_count, h.count]

/-- The padded data takes the bytes below `FILL` from the buffer and no other (R101). -/
theorem Context.Agree.dataByte {c₁ c₂ : Context} (h : c₁.Agree c₂) : dataByte c₁ = dataByte c₂ := by
  funext j
  unfold Machine.dataByte
  rw [← h.fill]
  split
  · next hj => exact h.buf j hj
  · rfl

theorem Context.Agree.finalAccumulator {c₁ c₂ : Context} (h : c₁.Agree c₂) :
    finalAccumulator c₁ = finalAccumulator c₂ := by
  have hneeds : needsExtraBlock c₁ = needsExtraBlock c₂ := by
    rw [needsExtraBlock, needsExtraBlock, h.fill]
  have hextra : extraBlock c₁ = extraBlock c₂ := by rw [extraBlock, extraBlock, h.dataByte]
  have hlast : lastBlock c₁ = lastBlock c₂ := by
    rw [lastBlock, lastBlock, h.dataByte, hneeds, h.count]
  rw [Machine.finalAccumulator, Machine.finalAccumulator, hneeds, hextra, hlast, h.acc]

theorem Context.Agree.finalize {c₁ c₂ : Context} (h : c₁.Agree c₂) :
    (finalize c₁).Agree (finalize c₂) := by
  refine ⟨?_, ?_, ?_, ?_, ?_⟩
  · rw [finalize_acc, finalize_acc, h.finalAccumulator]
  · rw [finalize_count, finalize_count, h.count]
  · rw [finalize_fill, finalize_fill, h.fill]
  · rw [finalize_fin, finalize_fin]
  · rw [finalize_buf, finalize_buf, finalize_fill]; exact h.buf

/-- Every command keeps the agreement. -/
theorem Context.Agree.contextAfter {c₁ c₂ : Context} (h : c₁.Agree c₂) (i : Instr) :
    (contextAfter i c₁).Agree (contextAfter i c₂) := by
  cases i with
  | reset => exact Context.Agree.refl _
  | update data =>
    cases hf : c₁.fin with
    | true =>
      rwa [contextAfter_update_finished data hf, contextAfter_update_finished data (h.fin ▸ hf)]
    | false =>
      rw [contextAfter_update_absorbing data hf, contextAfter_update_absorbing data (h.fin ▸ hf)]
      exact (h.absorbAll data).advanceCount _
  | digest =>
    cases hf : c₁.fin with
    | true => rwa [contextAfter_digest_finished hf, contextAfter_digest_finished (h.fin ▸ hf)]
    | false =>
      rw [contextAfter_digest_absorbing hf, contextAfter_digest_absorbing (h.fin ▸ hf)]
      exact h.finalize

/-- Contexts that agree give the same response to every command. -/
theorem Context.Agree.responseTo {c₁ c₂ : Context} (h : c₁.Agree c₂) (i : Instr) :
    responseTo i c₁ = responseTo i c₂ := by
  cases i with
  | reset => rfl
  | update data => rw [Machine.responseTo, Machine.responseTo, h.fin]
  | digest => rw [Machine.responseTo, Machine.responseTo, (h.contextAfter .digest).acc]

/-- Settles O43, by induction on the command list: each command keeps the agreement and answers alike. -/
theorem dontCareBytesAreNeverSeen : Obligations.DontCareBytesAreNeverSeen := by
  intro p
  induction p with
  | nil => exact fun s₁ s₂ h hrsp => ⟨s₁, s₂, rfl, rfl, hrsp, h⟩
  | cons i p ih =>
    intro s₁ s₂ h hrsp
    rw [runCommands_cons (exec_eq i s₁), runCommands_cons (exec_eq i s₂)]
    refine ih _ _ (h.contextAfter i) ?_
    rw [hrsp, h.responseTo i]

/-! ## The payload loop's frame -/

/-- A byte of `BUF` the payload loop does not store to reads as before (R91). -/
theorem absorbAll_read_other (c : Context) (data : List Byte) (j : Fin 64)
    (hj : ∀ k < data.length, j.val ≠ (c.fill.val + k) % 64) :
    (absorbAll c data).buf.read j = c.buf.read j := by
  induction data generalizing c with
  | nil => rfl
  | cons x data ih =>
    have hne : j ≠ c.fill := by
      have h0 := hj 0 (by simp)
      omega
    have hrest : ∀ k < data.length, j.val ≠ ((absorb c x).fill.val + k) % 64 := by
      intro k hk
      have hk1 := hj (k + 1) (by simpa using hk)
      rw [absorb_fill_val]
      omega
    rw [absorbAll_cons, ih _ hrest, absorb_buf, Memory.read_write_other _ _ hne]

/-- The `k`-th payload byte stands at index `(FILL + k) mod 64` of `BUF` when fewer than 64 bytes follow
it, so that none of them is stored there again (R91). -/
theorem absorbAll_read_stored (c : Context) (data : List Byte) (j : Fin 64) (k : Nat)
    (hk : k < data.length) (hlast : data.length ≤ k + 64) (hj : j.val = (c.fill.val + k) % 64) :
    (absorbAll c data).buf.read j = data[k] := by
  induction data generalizing c k with
  | nil => exact absurd hk (Nat.not_lt_zero k)
  | cons x data ih =>
    rw [List.length_cons] at hk hlast
    have hfill := absorb_fill_val c x
    rw [absorbAll_cons]
    cases k with
    | zero =>
      have hstore : j = c.fill := by omega
      rw [absorbAll_read_other _ _ _ (fun k' hk' => by omega), absorb_buf, hstore]
      simp
    | succ k =>
      rw [ih (absorb c x) k (by omega) (by omega) (by omega), List.getElem_cons_succ]

/-- Without a 64th byte COMPRESS does not run (R91). -/
theorem absorbAll_acc_of_lt {c : Context} {data : List Byte} (h : c.fill.val + data.length < 64) :
    (absorbAll c data).acc = c.acc := by
  induction data generalizing c with
  | nil => rfl
  | cons x data ih =>
    rw [List.length_cons] at h
    have hfill := absorb_fill_val c x
    rw [absorbAll_cons, ih (by omega), absorb_acc, if_neg (by omega)]

/-- UPDATE's frame on `BUF`, in either phase. -/
theorem contextAfter_update_read_other (data : List Byte) (c : Context) (j : Fin 64)
    (hj : ∀ k < data.length, j.val ≠ (c.fill.val + k) % 64) :
    (contextAfter (.update data) c).buf.read j = c.buf.read j := by
  cases hf : c.fin with
  | true => rw [contextAfter_update_finished data hf]
  | false =>
    rw [contextAfter_update_absorbing data hf, advanceCount_buf, absorbAll_read_other c data j hj]

/-- Settles O19: the state UPDATE answers, field by field; in phase ABSORBING the buffer is what the
payload loop leaves. -/
theorem updateFrame : Obligations.UpdateFrame := by
  intro data s t h
  rw [eq_of_exec_next h]
  refine ⟨contextAfter_update_fin data s.ctx, rfl, rfl, List.prefix_append _ _, ?_,
    contextAfter_update_read_other data s.ctx, ?_⟩
  · rintro (hf | rfl)
    · exact contextAfter_update_finished data hf
    · exact contextAfter_update_nil s.ctx
  · intro hf j k hk hlast hj
    rw [contextAfter_update_absorbing data hf, advanceCount_buf]
    exact absorbAll_read_stored s.ctx data j k hk hlast hj

/-- Settles O20, by the phase: the payload loop compresses at a 64th byte only, and phase FINISHED
writes nothing. -/
theorem accumulatorNeedsABlockBoundary : Obligations.AccumulatorNeedsABlockBoundary := by
  intro data s
  refine ⟨_, exec_eq (.update data) s, ?_⟩
  cases hf : s.ctx.fin with
  | true => intro _; rw [contextAfter_update_finished data hf]
  | false =>
    intro h
    have hroom : s.ctx.fill.val + data.length < 64 := h.resolve_right (by decide)
    rw [contextAfter_update_absorbing data hf, advanceCount_acc, absorbAll_acc_of_lt hroom]

/-! ## The phase -/

@[simp] theorem phase_eq_absorbing (c : Context) : c.phase = .absorbing ↔ c.fin = false := by
  unfold Context.phase; cases c.fin <;> decide

@[simp] theorem phase_eq_finished (c : Context) : c.phase = .finished ↔ c.fin = true := by
  unfold Context.phase; cases c.fin <;> decide

/-- The phase is a function of `FIN` alone (R17). -/
theorem phase_congr {c d : Context} (h : c.fin = d.fin) : c.phase = d.phase := by
  rw [Context.phase, Context.phase, h]

/-- Settles O39: what each command leaves in `FIN`, read as a phase. -/
theorem phaseTransitions : Obligations.PhaseTransitions := by
  refine ⟨fun c => ⟨phase_eq_absorbing c, phase_eq_finished c⟩, fun s => ⟨rfl, ?_, fun data => ?_, ?_⟩⟩
  · exact ⟨_, exec_eq .reset s, rfl⟩
  · exact ⟨_, exec_eq (.update data) s, phase_congr (contextAfter_update_fin data s.ctx)⟩
  · exact ⟨_, exec_eq .digest s, (phase_eq_finished _).mpr (contextAfter_digest_fin s.ctx)⟩

/-- Only the word 0x00000000 decodes to RESET, and only 0x80000000 to DIGEST (R57). -/
theorem decode_command_cases {cw : Word} {din rest : List Byte} {i : Instr}
    (h : decode cw din = .command i rest) :
    (cw = 0x00000000 ∧ i = .reset) ∨ (∃ data, i = .update data) ∨ (cw = 0x80000000 ∧ i = .digest) := by
  unfold decode at h
  rcases decodeHeader_cases cw with ⟨hcw, hd⟩ | ⟨-, hd⟩ | ⟨hcw, hd⟩ | ⟨-, -, -, hd⟩ <;>
    simp only [hd] at h
  · cases h; exact .inl ⟨hcw, rfl⟩
  · split at h
    · cases h
    · cases h; exact .inr (.inl ⟨_, rfl⟩)
  · cases h; exact .inr (.inr ⟨hcw, rfl⟩)
  · cases h

/-- How a step moves `FIN`: not at all, down with the word of RESET, or up with the word of DIGEST. -/
theorem step_fin {s t : State} (h : step s = .next t) :
    t.ctx.fin = s.ctx.fin ∨
    (t.ctx.fin = false ∧ ∃ cmd', s.cmd = 0x00000000 :: cmd') ∨
    (t.ctx.fin = true ∧ ∃ cmd', s.cmd = 0x80000000 :: cmd') := by
  rcases step_cases s with
    ⟨-, hstep⟩ | ⟨cw, cmd', hcmd, ⟨-, hstep⟩ | ⟨-, hstep⟩ | ⟨i, din', hdec, hstep⟩⟩
  · cases hstep.symm.trans h; exact .inl rfl
  · cases hstep.symm.trans h; exact .inl rfl
  · cases hstep.symm.trans h; exact .inl rfl
  · rw [eq_of_exec_next (hstep.symm.trans h)]
    rcases decode_command_cases hdec with ⟨rfl, rfl⟩ | ⟨data, rfl⟩ | ⟨rfl, rfl⟩
    · exact .inr (.inl ⟨rfl, cmd', hcmd⟩)
    · exact .inl (contextAfter_update_fin data s.ctx)
    · exact .inr (.inr ⟨contextAfter_digest_fin s.ctx, cmd', hcmd⟩)

/-- How an event moves `FIN`: hardware reset and a step can, the issuer's events leave the context. -/
theorem onEvent_fin {e : Event} {s t : State} (h : onEvent e s = .next t) :
    t.ctx.fin = s.ctx.fin ∨
    (t.ctx.fin = false ∧
      (e = .hardwareReset ∨ (e = .command ∧ ∃ cmd', s.cmd = 0x00000000 :: cmd'))) ∨
    (t.ctx.fin = true ∧ e = .command ∧ ∃ cmd', s.cmd = 0x80000000 :: cmd') := by
  cases e with
  | hardwareReset => cases h; exact .inr (.inl ⟨rfl, .inl rfl⟩)
  | header cw => cases h; exact .inl rfl
  | payload bytes => cases h; exact .inl rfl
  | takeResponse => cases h; exact .inl rfl
  | command =>
    rcases step_fin h with hsame | ⟨hdown, hcmd⟩ | ⟨hup, hcmd⟩
    · exact .inl hsame
    · exact .inr (.inl ⟨hdown, .inr ⟨rfl, hcmd⟩⟩)
    · exact .inr (.inr ⟨hup, rfl, hcmd⟩)

/-- Settles O40: of the three ways an event moves `FIN`, each direction admits one. -/
theorem onlyResetAndDigestMoveThePhase : Obligations.OnlyResetAndDigestMoveThePhase := by
  intro e s t h
  rcases onEvent_fin h with hsame | ⟨hdown, hcause⟩ | ⟨hup, hcause⟩
  · rw [hsame]
    exact ⟨fun h1 h0 => absurd (h1.symm.trans h0) (by decide),
      fun h0 h1 => absurd (h0.symm.trans h1) (by decide)⟩
  · exact ⟨fun _ _ => hcause, fun _ h1 => absurd (hdown.symm.trans h1) (by decide)⟩
  · exact ⟨fun _ h0 => absurd (hup.symm.trans h0) (by decide), fun _ _ => hcause⟩

end Sys2Proof.Machine

namespace Sys2Proof

/-! ## The decoder reads what the encoder sends -/

/-- An encodable payload's length is the argument field of its header word (R53, R54). -/
theorem argField_header_update {data : List Byte} (h : (Instr.update data).wellFormed = true) :
    (argField (Instr.update data).header).toNat = data.length := by
  have hle : data.length ≤ 2 ^ 30 - 1 := of_decide_eq_true h
  rw [header_update, argField_append, BitVec.toNat_ofNat, Nat.mod_eq_of_lt (by omega)]

/-- A well-formed command's header word and payload decode to the command, whatever bytes wait behind
the payload (R51, R60). -/
theorem decode_header_payload {i : Instr} (h : i.wellFormed = true) (rest : List Byte) :
    decode i.header (i.payload ++ rest) = .command i rest := by
  cases i with
  | reset => rfl
  | digest => rfl
  | update data =>
    have hop : opField (Instr.update data).header = 0b01 := by rw [header_update, opField_append]
    have hlen := argField_header_update h
    rw [Instr.payload, decode_update (decodeHeader_update hop) (by simp [hlen]), hlen,
      List.take_left, List.drop_left]

end Sys2Proof

namespace Sys2Proof.Machine

/-! ## The channels -/

/-- Settles O6: of what a step can do, the decoder's answer leaves one case. -/
theorem stepRunsDecodedCommand : Obligations.StepRunsDecodedCommand := by
  intro s cw cmd' i din' hcmd hdec
  rcases step_cases s with ⟨hidle, -⟩ | ⟨cw₁, cmd₁, hcmd₁, hdone⟩
  · cases hcmd.symm.trans hidle
  · cases hcmd.symm.trans hcmd₁
    rcases hdone with ⟨hdec₁, -⟩ | ⟨hdec₁, -⟩ | ⟨i₁, din₁, hdec₁, hstep⟩
    · cases hdec.symm.trans hdec₁
    · cases hdec.symm.trans hdec₁
    · cases hdec.symm.trans hdec₁
      exact hstep

/-- A command does not see what has been sent behind it. -/
theorem exec_sendCommands {i : Instr} {s t : State} (h : exec i s = .next t) (p : List Instr) :
    exec i (sendCommands p s) = .next (sendCommands p t) := by
  rw [eq_of_exec_next h, exec_eq, sendCommands_eq, sendCommands_eq]

/-- On channels that were empty a step takes exactly the first command of the list sent (R35). -/
theorem step_sendCommands_cons {i : Instr} (hi : i.wellFormed = true) {s : State}
    (hcmd : s.cmd = []) (hdin : s.din = []) (p : List Instr) :
    step (sendCommands (i :: p) s) = exec i (sendCommands p s) := by
  rw [sendCommands_eq, sendCommands_eq, hcmd, hdin]
  exact stepRunsDecodedCommand _ _ _ _ _ rfl (decode_header_payload hi _)

/-- Settles O44, by induction on the list: each step takes the first command and leaves the rest sent. -/
theorem channelsRunTheCommandList : Obligations.ChannelsRunTheCommandList := by
  intro p
  induction p with
  | nil => exact fun _ _ _ _ => rfl
  | cons i p ih =>
    intro s hwf hcmd hdin
    have hexec := exec_eq i s
    have hstep := (step_sendCommands_cons (hwf i List.mem_cons_self) hcmd hdin p).trans
      (exec_sendCommands hexec p)
    rw [List.length_cons, core_run_succ hstep, runCommands_cons hexec]
    exact ih _ (fun j hj => hwf j (List.mem_cons_of_mem i hj)) hcmd hdin

/-! ## Several instances -/

/-- The events of an interleaving that happen at `k`, in order: what R38 and R136 let `k` see. -/
def eventsAt {n : Nat} (k : Fin n) (order : List (Fin n × Event)) : List Event :=
  (order.filter fun x => x.1 = k).map Prod.snd

@[simp] theorem eventsAt_cons_same {n : Nat} (k : Fin n) (e : Event) (order : List (Fin n × Event)) :
    eventsAt k ((k, e) :: order) = e :: eventsAt k order := by simp [eventsAt]

theorem eventsAt_cons_other {n : Nat} {j k : Fin n} (h : j ≠ k) (e : Event)
    (order : List (Fin n × Event)) : eventsAt k ((j, e) :: order) = eventsAt k order := by
  simp [eventsAt, h]

/-- Every interleaving of events runs to its end, and each of the instances ends where its own events
lead it. -/
theorem System.runEvents_next {n : Nat} (order : List (Fin n × Event)) (sys : System n) :
    ∃ sys', System.runEvents order sys = .next sys' ∧
      ∀ k : Fin n, Machine.runEvents (eventsAt k order) sys[k] = .next sys'[k] := by
  induction order generalizing sys with
  | nil => exact ⟨sys, rfl, fun _ => rfl⟩
  | cons x order ih =>
    obtain ⟨j, e⟩ := x
    obtain ⟨t, ht⟩ := onEvent_next e sys[j]
    obtain ⟨sys', hrun, hown⟩ := ih (sys.set j t)
    refine ⟨sys', by rw [System.runEvents_cons (System.onEvent_eq ht), hrun], fun k => ?_⟩
    rw [← hown k]
    by_cases hjk : j = k
    · subst hjk
      rw [eventsAt_cons_same, Machine.runEvents_cons ht]
      simp
    · have hval : j.val ≠ k.val := fun h => hjk (Fin.ext h)
      rw [eventsAt_cons_other hjk]
      simp [hval]

/-- The events that an interleaving of commands gives `k`: a command for each of its turns. -/
theorem eventsAt_commands {n : Nat} (k : Fin n) (order : List (Fin n)) :
    eventsAt k (order.map fun j => (j, Event.command)) =
      List.replicate (order.count k) .command := by
  induction order with
  | nil => rfl
  | cons j order ih =>
    by_cases hjk : j = k
    · subst hjk
      rw [List.map_cons, eventsAt_cons_same, ih, List.count_cons_self, List.replicate_succ]
    · rw [List.map_cons, eventsAt_cons_other hjk, ih, List.count_cons_of_ne hjk]

/-- Command events alone are the steps of the host's machine. -/
theorem runEvents_replicate_command (m : Nat) (s : State) :
    runEvents (List.replicate m .command) s = core.run m s := by
  induction m generalizing s with
  | zero => rfl
  | succ m ih =>
    obtain ⟨t, ht⟩ := step_next s
    rw [List.replicate_succ, runEvents_cons (e := .command) ht, core_run_succ ht, ih]

/-- Settles O46: the interleaving of events in which every event is a command. -/
theorem instancesAreIndependent : Obligations.InstancesAreIndependent := by
  intro n order sys
  obtain ⟨sys', hrun, hown⟩ := System.runEvents_next (order.map fun k => (k, .command)) sys
  refine ⟨sys', hrun, fun k => ?_⟩
  rw [← runEvents_replicate_command, ← eventsAt_commands]
  exact hown k

end Sys2Proof.Machine

namespace Sys2Proof

/-! ## The fields of a header word and the opcode map (`30_encoding.md` R51, R56, R57) -/

theorem opField_and (x y : Word) : opField (x &&& y) = opField x &&& opField y :=
  BitVec.extractLsb'_and

theorem argField_and (x y : Word) : argField (x &&& y) = argField x &&& argField y :=
  BitVec.extractLsb'_and

/-- The mask of RESET and DIGEST keeps the whole word. -/
theorem and_controlMask (cw : Word) : cw &&& 0xFFFFFFFF = cw := BitVec.and_allOnes

/-- A word selects UPDATE's row of R56 exactly when `op = 01`. -/
theorem selects_update_iff (cw : Word) : cw &&& 0xC0000000 = 0x40000000 ↔ opField cw = 0b01 := by
  have hop : opField (cw &&& 0xC0000000) = opField cw := (opField_and cw _).trans BitVec.and_allOnes
  have harg : argField (cw &&& 0xC0000000) = 0 := (argField_and cw _).trans BitVec.and_zero
  constructor
  · intro h
    rw [← hop, h]
    decide
  · intro h
    exact header_ext (hop.trans h) harg

theorem eq_reset_iff_fields (cw : Word) : cw = 0x00000000 ↔ opField cw = 0b00 ∧ argField cw = 0 :=
  ⟨by rintro rfl; decide, fun ⟨hop, harg⟩ => header_ext hop harg⟩

theorem eq_digest_iff_fields (cw : Word) : cw = 0x80000000 ↔ opField cw = 0b10 ∧ argField cw = 0 :=
  ⟨by rintro rfl; decide, fun ⟨hop, harg⟩ => header_ext hop harg⟩

/-! ## Which words decode to which header (R58) -/

/-- R57's list of reserved words is every word but UPDATE's and the two control words, by the value of
`op`. -/
theorem reservedWord_iff (cw : Word) :
    Machine.ReservedWord cw ↔ cw ≠ 0x00000000 ∧ opField cw ≠ 0b01 ∧ cw ≠ 0x80000000 := by
  have hop : ∀ op : BitVec 2, op = 0b00 ∨ op = 0b01 ∨ op = 0b10 ∨ op = 0b11 := by decide
  rw [ne_eq, ne_eq, ne_eq, eq_reset_iff_fields, eq_digest_iff_fields]
  rcases hop (opField cw) with h | h | h | h <;> simp [Machine.ReservedWord, h]

/-- The words of a header, row by row of R58; `decodeHeader_eq_iff` ties it to the decoder. -/
def Header.HasWord : Header → Word → Prop
  | .reset, cw => cw = 0x00000000
  | .update len, cw => opField cw = 0b01 ∧ argField cw = len
  | .digest, cw => cw = 0x80000000
  | .illegal, cw => Machine.ReservedWord cw

/-- Every word is one of the header it decodes to. -/
theorem hasWord_decodeHeader (cw : Word) : (decodeHeader cw).HasWord cw := by
  rcases decodeHeader_cases cw with ⟨hcw, hd⟩ | ⟨hop, hd⟩ | ⟨hcw, hd⟩ | ⟨h0, h1, h2, hd⟩ <;> rw [hd]
  · exact hcw
  · exact ⟨hop, rfl⟩
  · exact hcw
  · exact (reservedWord_iff cw).mpr ⟨h0, h1, h2⟩

theorem decodeHeader_eq_iff (cw : Word) (h : Header) : decodeHeader cw = h ↔ h.HasWord cw := by
  refine ⟨fun hd => hd ▸ hasWord_decodeHeader cw, fun hw => ?_⟩
  cases h with
  | reset => exact (show cw = 0x00000000 from hw) ▸ decodeHeader_reset
  | update len =>
    obtain ⟨hop, rfl⟩ := hw
    exact decodeHeader_update hop
  | digest => exact (show cw = 0x80000000 from hw) ▸ decodeHeader_digest
  | illegal =>
    obtain ⟨h0, h1, h2⟩ := (reservedWord_iff cw).mp hw
    exact decodeHeader_illegal h0 h1 h2

/-- Settles O1: ten fixed words, evaluated. -/
theorem tableWordsDecode : Obligations.TableWordsDecode := by
  unfold Obligations.TableWordsDecode
  decide

/-- Settles O2: a row's selection and its decoding are the same condition on the word, and a word
decodes to one header only, so the rows are disjoint. -/
theorem headerWordSelectsItsRow : Obligations.HeaderWordSelectsItsRow := by
  intro cw
  have hreset : cw &&& 0xFFFFFFFF = 0x00000000 ↔ decodeHeader cw = .reset := by
    rw [and_controlMask, decodeHeader_eq_iff, Header.HasWord]
  have hupdate : cw &&& 0xC0000000 = 0x40000000 ↔ decodeHeader cw = .update (argField cw) := by
    rw [selects_update_iff, decodeHeader_eq_iff, Header.HasWord, and_iff_left rfl]
  have hdigest : cw &&& 0xFFFFFFFF = 0x80000000 ↔ decodeHeader cw = .digest := by
    rw [and_controlMask, decodeHeader_eq_iff, Header.HasWord]
  refine ⟨hreset, hupdate, hdigest, fun hop => (decodeHeader_eq_iff cw .illegal).mpr (.inl hop),
    ?_, ?_, ?_⟩
  · rintro ⟨h₁, h₂⟩; cases (hreset.mp h₁).symm.trans (hupdate.mp h₂)
  · rintro ⟨h₁, h₂⟩; cases (hreset.mp h₁).symm.trans (hdigest.mp h₂)
  · rintro ⟨h₁, h₂⟩; cases (hupdate.mp h₁).symm.trans (hdigest.mp h₂)

/-! ## The round trip of whole commands (R53, R60) -/

/-- Settles O3: the header word's argument field is the payload's length, so the decoder takes exactly
the payload. -/
theorem decodeOfEncodeIsTheCommand : Obligations.DecodeOfEncodeIsTheCommand :=
  fun _ rest h => decode_header_payload h rest

theorem decode_of_reset {cw : Word} (h : decodeHeader cw = .reset) (din : List Byte) :
    decode cw din = .command .reset din := by simp [decode, h]

theorem decode_of_digest {cw : Word} (h : decodeHeader cw = .digest) (din : List Byte) :
    decode cw din = .command .digest din := by simp [decode, h]

theorem decode_of_illegal {cw : Word} (h : decodeHeader cw = .illegal) (din : List Byte) :
    decode cw din = .illegal := by simp [decode, h]

/-- A word with `op = 01` is the header word of every payload of the length it asks for. -/
theorem header_update_eq {cw : Word} (hop : opField cw = 0b01) {data : List Byte}
    (hlen : data.length = (argField cw).toNat) : (Instr.update data).header = cw := by
  rw [header_update, hlen, BitVec.ofNat_toNat, BitVec.setWidth_eq, ← hop, header_fields]

/-- The length an argument field asks for is one an UPDATE can carry. -/
theorem wellFormed_update_of_length_eq {arg : BitVec 30} {data : List Byte}
    (hlen : data.length = arg.toNat) : (Instr.update data).wellFormed = true := by
  have hlt := arg.isLt
  have hle : data.length ≤ 2 ^ 30 - 1 := by omega
  exact decide_eq_true hle

/-- Settles O4, by what the header word decodes to: a control word is its own encoding, and an UPDATE's
payload is cut from `DIN` with the length in the word. -/
theorem decodedCommandEncodesBack : Obligations.DecodedCommandEncodesBack := by
  intro cw din i rest h
  rcases decodeHeader_cases cw with ⟨hcw, hd⟩ | ⟨hop, hd⟩ | ⟨hcw, hd⟩ | ⟨-, -, -, hd⟩
  · cases (decode_of_reset hd din).symm.trans h
    exact ⟨rfl, hcw.symm, rfl⟩
  · rcases Nat.lt_or_ge din.length (argField cw).toNat with hshort | hwhole
    · cases (decode_short hd hshort).symm.trans h
    · cases (decode_update hd hwhole).symm.trans h
      have hlen : (din.take (argField cw).toNat).length = (argField cw).toNat :=
        List.length_take_of_le hwhole
      exact ⟨wellFormed_update_of_length_eq hlen, header_update_eq hop hlen, List.take_append_drop _ _⟩
  · cases (decode_of_digest hd din).symm.trans h
    exact ⟨rfl, hcw.symm, rfl⟩
  · cases (decode_of_illegal hd din).symm.trans h

/-- A word that is not reserved decodes to a command once its payload is there, and the command leaves
what stands behind the payload (R60). -/
theorem decode_of_payload_le {cw : Word} {din : List Byte} (hlegal : decodeHeader cw ≠ .illegal)
    (hlen : payloadLength (decodeHeader cw) ≤ din.length) :
    ∃ i, decode cw din = .command i (din.drop (payloadLength (decodeHeader cw))) := by
  cases hd : decodeHeader cw with
  | reset => exact ⟨.reset, decode_of_reset hd din⟩
  | update len =>
    rw [hd] at hlen
    exact ⟨_, decode_update hd hlen⟩
  | digest => exact ⟨.digest, decode_of_digest hd din⟩
  | illegal => exact absurd hd hlegal

end Sys2Proof

namespace Sys2Proof.Machine

/-! ## What a step takes from the channels (R57, R60) -/

/-- A reserved word is taken from `CMD`, and the step raises IllegalCommand (R57). -/
theorem step_of_illegal {s : State} {cw : Word} {cmd' : List Word} (hcmd : s.cmd = cw :: cmd')
    (hill : decodeHeader cw = .illegal) :
    step s = .next (raise .illegalCommand { s with cmd := cmd' }) := by
  have hdec := decode_of_illegal hill s.din
  rcases step_cases s with ⟨hidle, -⟩ | ⟨cw₁, cmd₁, hcmd₁, hdone⟩
  · cases hcmd.symm.trans hidle
  · cases hcmd.symm.trans hcmd₁
    rcases hdone with ⟨hdec₁, -⟩ | ⟨-, hstep⟩ | ⟨i, din', hdec₁, -⟩
    · cases hdec.symm.trans hdec₁
    · exact hstep
    · cases hdec.symm.trans hdec₁

/-- Settles O5: the words that decode to ILLEGAL are R57's, and the exception writes the response only. -/
theorem reservedWordRaisesIllegalCommand : Obligations.ReservedWordRaisesIllegalCommand := by
  intro s cw cmd' hcmd
  have hiff : decodeHeader cw = .illegal ↔ ReservedWord cw := decodeHeader_eq_iff cw .illegal
  exact ⟨hiff, fun hres => step_of_illegal hcmd (hiff.mpr hres)⟩

/-- Settles O9: a reserved word takes no payload, and every other word's command finds its own taken. -/
theorem stepTakesExactlyItsPayload : Obligations.StepTakesExactlyItsPayload := by
  intro s cw cmd' hcmd hlen
  by_cases hill : decodeHeader cw = .illegal
  · exact ⟨_, step_of_illegal hcmd hill, rfl, by rw [hill]; rfl⟩
  · obtain ⟨i, hdec⟩ := decode_of_payload_le hill hlen
    exact ⟨_, (stepRunsDecodedCommand s cw cmd' i _ hcmd hdec).trans (exec_eq i _), rfl, rfl⟩

/-! ## Responses (R59) -/

/-- A response carries a digest exactly when it answers DIGEST (R59). -/
theorem responseTo_dout_isSome (i : Instr) (c : Context) :
    (responseTo i c).dout.isSome = true ↔ i = .digest := by
  cases i <;> simp [responseTo]

/-- Settles O38: the response is a function of the command and the context, and no status has code 3. -/
theorem oneResponsePerCommand : Obligations.OneResponsePerCommand := by
  refine ⟨fun i s => ?_, rfl, rfl, rfl, fun st => ?_⟩
  · refine ⟨_, responseTo i s.ctx, exec_eq i s, rfl, responseTo_dout_isSome i s.ctx, ?_, ?_⟩
    · rintro rfl; rfl
    · rintro rfl; rfl
  · cases st <;> decide

/-! ## Bursts (R55, R62) -/

/-- `COUNT` advances by a sum as by its parts (R93). -/
theorem advanceCount_add (m n : Nat) (c : Context) :
    advanceCount (m + n) c = advanceCount n (advanceCount m c) := by
  apply Context.eq_of_fields <;> simp [zext64, BitVec.ofNat_add, BitVec.add_assoc]

/-- An UPDATE with two payloads in one writes what two UPDATEs write (R92). -/
theorem contextAfter_update_append (u v : List Byte) (c : Context) :
    contextAfter (.update (u ++ v)) c = contextAfter (.update v) (contextAfter (.update u) c) := by
  cases hf : c.fin with
  | true => simp only [contextAfter_update_finished _ hf]
  | false =>
    rw [contextAfter_update_absorbing v (by rw [contextAfter_update_fin, hf]),
      contextAfter_update_absorbing u hf, contextAfter_update_absorbing _ hf, absorbAll_append,
      absorbAll_advanceCount, List.length_append, advanceCount_add]

/-- UPDATEs one after another write what one UPDATE with all their payloads writes. -/
theorem runCommands_map_update (ds : List (List Byte)) (s : State) :
    ∃ t, runCommands (ds.map .update) s = .next t ∧
      t.ctx = contextAfter (.update ds.flatten) s.ctx := by
  induction ds generalizing s with
  | nil => exact ⟨s, rfl, (contextAfter_update_nil s.ctx).symm⟩
  | cons d ds ih =>
    obtain ⟨t, hrun, hctx⟩ :=
      ih { s with ctx := contextAfter (.update d) s.ctx, rsp := s.rsp ++ [responseTo (.update d) s.ctx] }
    refine ⟨t, ?_, ?_⟩
    · rw [List.map_cons, runCommands_cons (exec_eq (.update d) s), hrun]
    · rw [hctx, List.flatten_cons, contextAfter_update_append]

/-- Settles O45: the cut covers the payload with pieces of at most `MAX_BURST` bytes, and UPDATEs with
the pieces write what one UPDATE with the whole writes. -/
theorem burstsCoverALongUpdate : Obligations.BurstsCoverALongUpdate := by
  intro data s _
  obtain ⟨hcover, hsize⟩ := splitBursts_spec (size := Config.maxBurst) (by decide)
    (Nat.lt_succ_self data.length)
  refine ⟨?_, ?_, ?_⟩
  · intro i hi
    obtain ⟨d, hd, rfl⟩ := List.mem_map.mp hi
    exact decide_eq_true (hsize d hd)
  · rw [updateBursts, List.map_map]
    exact (congrArg List.flatten (List.map_id _)).trans hcover
  · obtain ⟨t, hrun, hctx⟩ :=
      runCommands_map_update (splitBursts Config.maxBurst (data.length + 1) data) s
    exact ⟨t, _, hrun, exec_eq (.update data) s, by rw [hctx, hcover]⟩

end Sys2Proof.Machine

namespace Sys2Proof.Machine

/-! ## The register form of COMPRESS (`40_block_transform.md` R81) -/

/-- The roles move one on: the register of `d` takes the role of `a`, that of `a` the role of `b`, and so
on (R81). `mixStep_moveRoles` ties it to the steps. -/
def moveRoles (w : Accumulator) : Accumulator := { a := w.d, b := w.a, c := w.b, d := w.c }

/-- After four moves every register has its role again. -/
theorem moveRoles_isPeriodicPt (w : Accumulator) : Function.IsPeriodicPt moveRoles 4 w := rfl

theorem moveRoles_iterate_mod (n : Nat) (w : Accumulator) : moveRoles^[n % 4] w = moveRoles^[n] w :=
  (moveRoles_isPeriodicPt w).iterate_mod_apply n

/-- Step `i` rotates the roles exactly as the register form overwrites the one register that is due. -/
theorem mixStep_moveRoles (blk : Block) (i : Nat) (w : Accumulator) :
    mixStep blk i (moveRoles^[i] w) = moveRoles^[i + 1] (registerStep blk i w) := by
  have hnext : (i + 1) % 4 = (Fin.ofNat 4 i + 1).val := by rw [Fin.val_add, Fin.val_ofNat]; omega
  rw [← moveRoles_iterate_mod i, ← moveRoles_iterate_mod (i + 1), hnext, ← Fin.val_ofNat, registerStep]
  generalize Fin.ofNat 4 i = due
  match due with
  | 0 | 1 | 2 | 3 => rfl

/-- After any number of steps the working variables are the registers with the roles moved as often. -/
theorem mixSteps_eq_moveRoles (blk : Block) (acc : Accumulator) (n : Nat) :
    mixSteps blk acc n = moveRoles^[n] (registerSteps blk acc n) := by
  induction n with
  | zero => rfl
  | succ n ih => rw [mixSteps, ih, mixStep_moveRoles, registerSteps]

/-- Settles O27: after a multiple of four steps the roles are back at their registers. -/
theorem registerFormAgrees : Obligations.RegisterFormAgrees := by
  intro blk acc
  have hfour : ∀ n : Nat, registerSteps blk acc (4 * n) = mixSteps blk acc (4 * n) := by
    intro n
    rw [mixSteps_eq_moveRoles, ← moveRoles_iterate_mod, Nat.mul_mod_right, Function.iterate_zero_apply]
  exact ⟨hfour, by rw [compress_eq, ← hfour 16]⟩

/-- Settles O26: the step's own equation, and COMPRESS opened once. -/
theorem compressRunsSixtyFourSteps : Obligations.CompressRunsSixtyFourSteps := by
  intro blk acc
  refine ⟨rfl, fun i hi => ⟨?_, rfl⟩, compress_eq acc blk⟩
  have hround : i / 16 < 4 := by omega
  exact Nat.mod_eq_of_lt hround

/-- Settles O24: finite tables, evaluated. -/
theorem tablesOfTheTransform : Obligations.TablesOfTheTransform := by
  unfold Obligations.TablesOfTheTransform
  decide

/-! ## Message words (R71) -/

/-- The four bytes of `MemRead(addr, 4)` (`00_scope.md` R8). -/
theorem readLE_four (m : Memory) (addr : Nat) :
    m.readLE addr 4 =
      (m.lookupCell addr).toNat + 2 ^ 8 * (m.lookupCell (addr + 1)).toNat +
        2 ^ 16 * (m.lookupCell (addr + 2)).toNat + 2 ^ 24 * (m.lookupCell (addr + 3)).toNat := by
  simp only [Memory.readLE, Nat.add_zero]
  omega

/-- Settles O21: a word of four bytes is its little-endian sum, and `MemRead` is the same sum over `BUF`. -/
theorem messageWordsAreLittleEndian : Obligations.MessageWordsAreLittleEndian := by
  have hsum : ∀ (blk : Block) (k : Fin 16), (messageWord blk k).toNat =
      blk[4 * k.val].toNat + 2 ^ 8 * blk[4 * k.val + 1].toNat +
        2 ^ 16 * blk[4 * k.val + 2].toNat + 2 ^ 24 * blk[4 * k.val + 3].toNat :=
    fun blk k => le32_toNat _ _ _ _
  refine ⟨hsum, fun m k => ?_⟩
  rw [hsum, readLE_four]
  simp only [Memory.block_getElem, Memory.read]

/-! ## The mixing functions (R74 to R77) -/

theorem mix_zero (b c d : Word) : mix 0 b c d = (b &&& c) ||| (~~~b &&& d) := rfl
theorem mix_one (b c d : Word) : mix 1 b c d = (b &&& d) ||| (c &&& ~~~d) := rfl
theorem mix_two (b c d : Word) : mix 2 b c d = b ^^^ c ^^^ d := rfl
theorem mix_three (b c d : Word) : mix 3 b c d = c ^^^ (b ||| ~~~d) := rfl

/-- Bit `j` of a select: the bit of `x` where the selector `s` has a 1, of `y` where it has a 0. -/
theorem getLsbD_select (s x y : Word) {j : Nat} (hj : j < 32) :
    ((s &&& x) ||| (~~~s &&& y)).getLsbD j = if s.getLsbD j then x.getLsbD j else y.getLsbD j := by
  rw [BitVec.getLsbD_or, BitVec.getLsbD_and, BitVec.getLsbD_and, BitVec.getLsbD_not, decide_eq_true hj]
  cases s.getLsbD j <;> simp

/-- The two terms of a select never have a 1 in the same bit. -/
theorem select_disjoint (s x y : Word) : (s &&& x) &&& (~~~s &&& y) = 0 := by
  refine BitVec.eq_of_getLsbD_eq fun j hj => ?_
  rw [BitVec.getLsbD_and, BitVec.getLsbD_and, BitVec.getLsbD_and, BitVec.getLsbD_not]
  cases s.getLsbD j <;> simp

/-- The two terms of a select may be joined by `^` as well as by `|` (R74). -/
theorem select_xor_eq_or (s x y : Word) : (s &&& x) ^^^ (~~~s &&& y) = (s &&& x) ||| (~~~s &&& y) := by
  refine BitVec.eq_of_getLsbD_eq fun j hj => ?_
  rw [BitVec.getLsbD_xor, BitVec.getLsbD_or, BitVec.getLsbD_and, BitVec.getLsbD_and, BitVec.getLsbD_not]
  cases s.getLsbD j <;> simp

/-- Round 2 is round 1's select with `d` the selector (R75). -/
theorem mix_one_eq_mix_zero (b c d : Word) : mix 1 b c d = mix 0 d b c := by
  rw [mix_one, mix_zero, BitVec.and_comm b d, BitVec.and_comm c]

/-- Settles O22: the terms of the select are disjoint, and with `b` and `c` all zeros and `d` all ones it
gives `d` where the majority is 0. -/
theorem roundOneIsASelect : Obligations.RoundOneIsASelect := by
  refine ⟨fun b c d => ⟨mix_zero b c d, fun j hj => ?_, ?_, ?_⟩, fun hmajority => ?_⟩
  · rw [mix_zero, getLsbD_select b c d hj]
  · rw [mix_zero, BitVec.add_eq_or_of_and_eq_zero _ _ (select_disjoint b c d)]
  · rw [mix_zero, select_xor_eq_or b c d]
  · exact absurd (hmajority 0 0 0xFFFFFFFF) (by decide)

/-- Settles O23: round 2 by the select's bits, rounds 3 and 4 bit by bit, and the four values at zero. -/
theorem laterRoundsMix : Obligations.LaterRoundsMix := by
  refine ⟨fun b c d => ⟨mix_one b c d, fun j hj => ?_, mix_two b c d, fun j _ => ?_, mix_three b c d,
    fun j hj => ?_⟩, by decide⟩
  · rw [mix_one_eq_mix_zero, mix_zero, getLsbD_select d b c hj]
  · rw [mix_two, BitVec.getLsbD_xor, BitVec.getLsbD_xor]
  · rw [mix_three, BitVec.getLsbD_xor, BitVec.getLsbD_or, BitVec.getLsbD_not, decide_eq_true hj,
      Bool.true_and]

/-! ## UPDATE in bulk (R86, `41_update.md` R92) -/

/-- What is left of a byte string behind its whole 64-byte pieces (R92). -/
def leftover (l : List Byte) : List Byte := l.drop (64 * (l.length / 64))

theorem leftover_short {l : List Byte} (h : l.length < 64) : leftover l = l := by
  rw [leftover, Nat.div_eq_of_lt h, Nat.mul_zero, List.drop_zero]

/-- A whole piece in front leaves nothing more. -/
theorem leftover_append {l : List Byte} (h : l.length = 64) (m : List Byte) :
    leftover (l ++ m) = leftover m := by
  have hlen : 64 * ((l ++ m).length / 64) = l.length + 64 * (m.length / 64) := by
    rw [List.length_append, h]; omega
  rw [leftover, leftover, hlen, List.drop_length_add_append]

/-- A whole piece in front is compressed first. -/
theorem compressAll_piece_append (acc : Accumulator) {l : List Byte} (h : l.length = 64)
    (m : List Byte) : compressAll acc (l ++ m) = compressAll (compress acc (blockOfList l)) m := by
  rw [compressAll_block acc (by simp [h]), blockOfList_append m h.ge, ← h, List.drop_left]

/-- Once a byte is stored at `FILL`, `BUF` reads as the buffered bytes and then that byte (R91). -/
theorem pending_append_getElem? (c : Context) (x : Byte) {j : Fin 64} (hj : j ≤ c.fill) :
    (c.pending ++ [x])[j.val]? = some ((c.buf.write c.fill x).read j) := by
  by_cases hlast : j = c.fill
  · subst hlast
    rw [List.getElem?_append_right (by simp)]
    simp
  · have hlt : j.val < c.pending.length := by rw [pending_length]; omega
    rw [List.getElem?_append_left hlt, List.getElem?_eq_getElem hlt, pending_getElem,
      Memory.read_write_other _ _ hlast]

/-- ABSORB of the 64th byte compresses the buffered bytes and that byte (R91). -/
theorem absorb_acc_full {c : Context} (hfull : c.fill = 63) (x : Byte) :
    (absorb c x).acc = compress c.acc (blockOfList (c.pending ++ [x])) := by
  have hblock : Memory.block (c.buf.write c.fill x) = blockOfList (c.pending ++ [x]) := by
    refine congrArg Vector.ofFn (funext fun j => ?_)
    rw [List.getD_eq_getElem?_getD, pending_append_getElem? c x (by omega), Option.getD_some]
  rw [absorb_acc, if_pos hfull, hblock]

/-- ABSORB of the 64th byte leaves no buffered byte. -/
theorem absorb_pending_full {c : Context} (hfull : c.fill = 63) (x : Byte) :
    (absorb c x).pending = [] :=
  List.eq_nil_of_length_eq_zero (by rw [pending_length, absorb_fill, if_pos hfull]; rfl)

/-- ABSORB of any other byte puts it behind the buffered bytes. -/
theorem absorb_pending_room {c : Context} (hroom : c.fill ≠ 63) (x : Byte) :
    (absorb c x).pending = c.pending ++ [x] := by
  have hfill : (absorb c x).fill.val = c.fill.val + 1 := by rw [absorb_fill_val]; omega
  refine List.ext_getElem (by simp [hfill]) fun j hj hj' => ?_
  rw [pending_length] at hj
  have hle : j ≤ c.fill.val := by omega
  have hread := pending_append_getElem? c x (j := ⟨j, by omega⟩) (Fin.le_def.mpr hle)
  rw [pending_getElem, absorb_buf]
  exact ((List.getElem_eq_iff hj').mpr hread).symm

/-- ABSORB keeps the value of the buffered bytes followed by what is still to come: the same chain of
COMPRESS and the same leftover, before the byte and after it. -/
theorem bulk_absorb (c : Context) (x : Byte) (data : List Byte) :
    compressAll (absorb c x).acc ((absorb c x).pending ++ data) =
        compressAll c.acc (c.pending ++ x :: data) ∧
      leftover ((absorb c x).pending ++ data) = leftover (c.pending ++ x :: data) := by
  rw [List.append_cons]
  by_cases hfull : c.fill = 63
  · have hpiece : (c.pending ++ [x]).length = 64 := by simp [hfull]
    rw [absorb_pending_full hfull, absorb_acc_full hfull, compressAll_piece_append _ hpiece,
      leftover_append hpiece]
    exact ⟨rfl, rfl⟩
  · rw [absorb_pending_room hfull, absorb_acc, if_neg hfull]
    exact ⟨rfl, rfl⟩

/-- The payload loop is the bulk form: the chain over the whole pieces, and the leftover in the buffer. -/
theorem absorbAll_bulk (c : Context) (data : List Byte) :
    (absorbAll c data).acc = compressAll c.acc (c.pending ++ data) ∧
      (absorbAll c data).pending = leftover (c.pending ++ data) := by
  induction data generalizing c with
  | nil =>
    have hshort : c.pending.length < 64 := by rw [pending_length]; exact c.fill.isLt
    rw [List.append_nil, compressAll_short _ hshort, leftover_short hshort]
    exact ⟨rfl, rfl⟩
  | cons x data ih =>
    obtain ⟨hacc, hpending⟩ := bulk_absorb c x data
    rw [absorbAll_cons, ← hacc, ← hpending]
    exact ih (absorb c x)

/-- Settles O17: in phase ABSORBING the context is what the payload loop leaves with `COUNT` advanced. -/
theorem updateEqualsItsBulkForm : Obligations.UpdateEqualsItsBulkForm := by
  intro data s hf
  obtain ⟨hacc, hpending⟩ := absorbAll_bulk s.ctx data
  refine ⟨_, exec_eq (.update data) s, ?_⟩
  rw [contextAfter_update_absorbing data hf]
  refine ⟨hacc, hpending.trans ?_, absorbAll_fill_val s.ctx data⟩
  rw [leftover, List.length_append, pending_length]

end Sys2Proof.Machine

namespace Sys2Proof.Machine

/-! ## ABSORB, one byte (R91) -/

/-- After the byte is stored, `BUF` is the old one with index `FILL` replaced (R91). -/
theorem absorb_read (c : Context) (x : Byte) (j : Fin 64) :
    (absorb c x).buf.read j = if j = c.fill then x else c.buf.read j := by
  rw [absorb_buf, Memory.read_write]

/-- Settles O15: the 64th byte is the one that finds `FILL` at 63, and the block it completes is read
back byte by byte. -/
theorem absorbStoresOneByte : Obligations.AbsorbStoresOneByte := by
  intro c x
  refine ⟨absorb_read c x, absorb_count c x, absorb_fin c x, fun hroom => ?_, fun hlast => ?_⟩
  · rw [absorb_fill_val, absorb_acc, if_neg (by omega)]
    exact ⟨Nat.mod_eq_of_lt (by omega), rfl⟩
  · have hfull : c.fill = 63 := Fin.ext hlast
    have hread : ∀ j : Fin 64, (Memory.write c.buf c.fill x).read j =
        if j.val = 63 then x else c.buf.read j := by
      intro j
      have hindex : j = c.fill ↔ j.val = 63 := by omega
      simp only [Memory.read_write, hindex]
    rw [absorb_fill_val, hlast, absorb_acc, if_pos hfull, Memory.block, funext hread]
    exact ⟨rfl, rfl⟩

/-! ## UPDATE: `COUNT`, the answer and chunks (R90, R92, R93) -/

/-- In phase ABSORBING the payload length is added to `COUNT` modulo 2^64 (R93). -/
theorem contextAfter_update_count_toNat (data : List Byte) {c : Context} (hf : c.fin = false) :
    (contextAfter (.update data) c).count.toNat = (c.count.toNat + data.length) % 2 ^ 64 := by
  rw [contextAfter_update_absorbing data hf, advanceCount_count, absorbAll_count, zext64,
    BitVec.toNat_add, BitVec.toNat_ofNat, Nat.add_mod_mod]

/-- Settles O16: by the phase. -/
theorem updateAdvancesCount : Obligations.UpdateAdvancesCount := by
  intro data s
  refine ⟨_, exec_eq (.update data) s, contextAfter_update_count_toNat data, fun hf => ?_⟩
  rw [contextAfter_update_finished data hf]

/-- An UPDATE is accepted in phase ABSORBING, and in phase FINISHED when it is empty (R90, R94). -/
theorem responseTo_update_ok {data : List Byte} {c : Context} (h : c.fin = true → data = []) :
    responseTo (.update data) c = ⟨.ok, none⟩ := by
  rw [responseTo, if_neg fun hrejected => hrejected.2 (h hrejected.1)]

/-- A non-empty UPDATE in phase FINISHED is rejected (R94). -/
theorem responseTo_update_alreadyFinished {data : List Byte} {c : Context} (hd : data ≠ [])
    (hf : c.fin = true) : responseTo (.update data) c = ⟨.alreadyFinished, none⟩ := by
  rw [responseTo, if_pos ⟨hf, hd⟩]

/-- Settles O14: the context and the response of each of R90's three cases. -/
theorem updateAnswers : Obligations.UpdateAnswers := by
  intro data s
  refine ⟨?_, fun hd hf => ?_, fun _ hf => ?_⟩
  · rintro rfl
    rw [exec_eq, contextAfter_update_nil, responseTo_update_ok fun _ => rfl]
  · rw [exec_eq, contextAfter_update_finished data hf, responseTo_update_alreadyFinished hd hf]
  · have haccepted : s.ctx.fin = true → data = [] := fun h => absurd (hf.symm.trans h) (by decide)
    have hcount : (absorbAll s.ctx data).count = s.ctx.count := absorbAll_count s.ctx data
    have hfin : (absorbAll s.ctx data).fin = false := (absorbAll_fin s.ctx data).trans hf
    rw [exec_eq, contextAfter_update_absorbing data hf, responseTo_update_ok haccepted, advanceCount,
      hcount, hfin]
    rfl

/-- Settles O18: a run leaves `CMD` and `DIN`, and UPDATEs one after another write what one UPDATE with
the concatenation writes. -/
theorem anyPartitionGivesTheSameContext : Obligations.AnyPartitionGivesTheSameContext := by
  intro chunks s _
  obtain ⟨t, hrun, hctx⟩ := runCommands_map_update chunks s
  obtain ⟨c, rs, hchannels⟩ := runCommands_of_ctx (chunks.map .update) s.ctx
  obtain rfl : _ = t := Host.Outcome.next.inj ((hchannels s rfl).symm.trans hrun)
  exact ⟨_, _, hrun, exec_eq (.update chunks.flatten) s, hctx, rfl, rfl⟩

end Sys2Proof.Machine

namespace Sys2Proof.Machine

/-! ## DIGEST's frame and its repetition (R106, R107) -/

/-- DIGEST writes neither `BUF` nor `FILL` nor `COUNT` (R107). -/
theorem contextAfter_digest_frame (c : Context) :
    (contextAfter .digest c).buf = c.buf ∧ (contextAfter .digest c).fill = c.fill ∧
      (contextAfter .digest c).count = c.count := by
  cases hf : c.fin with
  | true => rw [contextAfter_digest_finished hf]; exact ⟨rfl, rfl, rfl⟩
  | false =>
    rw [contextAfter_digest_absorbing hf]
    exact ⟨finalize_buf c, finalize_fill c, finalize_count c⟩

/-- Settles O31: `CMD` and `DIN` are no part of what a command writes. -/
theorem digestFrame : Obligations.DigestFrame := by
  intro s
  obtain ⟨hbuf, hfill, hcount⟩ := contextAfter_digest_frame s.ctx
  exact ⟨_, exec_eq .digest s, hbuf, hfill, hcount, rfl, rfl, contextAfter_digest_finished⟩

/-- In phase FINISHED a command other than RESET adds `finishedResponse` and nothing else (R120). -/
theorem exec_finished {i : Instr} (hi : i ≠ .reset) {s : State} (hf : s.ctx.fin = true) :
    exec i s = .next { s with rsp := s.rsp ++ [finishedResponse s.ctx.acc i] } := by
  rw [exec_eq]
  cases i with
  | reset => exact absurd rfl hi
  | update data =>
    rw [contextAfter_update_finished data hf]
    cases data with
    | nil => rw [responseTo_update_ok fun _ => rfl]; rfl
    | cons x data => rw [responseTo_update_alreadyFinished (List.cons_ne_nil x data) hf]; rfl
  | digest => rw [responseTo, contextAfter_digest_finished hf]; rfl

/-- In phase FINISHED a run without RESET adds its responses and nothing else (R106, R120). -/
theorem runCommands_finished {p : List Instr} (hp : ∀ i ∈ p, i ≠ .reset) {s : State}
    (hf : s.ctx.fin = true) :
    runCommands p s = .next { s with rsp := s.rsp ++ p.map (finishedResponse s.ctx.acc) } := by
  induction p generalizing s with
  | nil => simp
  | cons i p ih =>
    obtain ⟨hi, hp⟩ := List.forall_mem_cons.mp hp
    rw [runCommands_cons (exec_finished hi hf), ih hp (by exact hf), List.append_assoc]
    rfl

/-- Settles O32: DIGEST enters phase FINISHED from every state, and there a run without RESET keeps the
context. -/
theorem digestIsRepeatable : Obligations.DigestIsRepeatable := by
  intro p s hp
  have hfin := contextAfter_digest_fin s.ctx
  exact ⟨_, _, exec_eq .digest s, hfin, rfl, runCommands_finished hp hfin, rfl, rfl⟩

/-! ## The length tail (R104) -/

/-- A part of a part of a bit vector is a part of it. -/
theorem extractLsb'_extractLsb'_of_add_le {w a n b m : Nat} (x : BitVec w) (h : b + m ≤ n) :
    (x.extractLsb' a n).extractLsb' b m = x.extractLsb' (a + b) m := by
  refine BitVec.eq_of_getLsbD_eq fun i hi => ?_
  simp only [BitVec.getLsbD_extractLsb', show b + i < n by omega, decide_true, Bool.true_and,
    Nat.add_assoc]

/-- Byte `j` of the length tail is byte `j` of `L`, the least significant first (R104). -/
theorem lengthTail_getElem (count : Word64) {j : Nat} (hj : j < 8) :
    (lengthTail count)[j] = (bitLength count).extractLsb' (8 * j) 8 := by
  unfold lengthTail
  by_cases hlow : j < 4
  · rw [Vector.getElem_append_left hlow, leBytes32_getElem _ hlow,
      extractLsb'_extractLsb'_of_add_le _ (by omega), Nat.zero_add]
  · rw [Vector.getElem_append_right hj (by omega), leBytes32_getElem _ (by omega),
      extractLsb'_extractLsb'_of_add_le _ (by omega), show 32 + 8 * (j - 4) = 8 * j by omega]

/-- Byte `56 + j` of the last block is byte `j` of `L` (R104). -/
theorem lastBlock_getElem_bitLength (c : Context) {j : Nat} (hj : j < 8) :
    (lastBlock c)[56 + j] = (bitLength c.count).extractLsb' (8 * j) 8 := by
  rw [lastBlock_tail c hj, lengthTail_getElem c.count hj]

/-- Settles O29: byte by byte, and `M[14]` and `M[15]` are four of these bytes each. -/
theorem lastBlockEndsInTheBitLength : Obligations.LastBlockEndsInTheBitLength := by
  intro c
  have hbyte : ∀ (j : Nat) (hj : j < 8),
      (lastBlock c)[56 + j] = (bitLength c.count).extractLsb' (8 * j) 8 :=
    fun _ hj => lastBlock_getElem_bitLength c hj
  refine ⟨BitVec.toNat_mul c.count 8, hbyte, ?_, ?_⟩
  · rw [← le32_extractLsb', ← hbyte 0 (by decide), ← hbyte 1 (by decide), ← hbyte 2 (by decide),
      ← hbyte 3 (by decide)]
    rfl
  · rw [← le32_extractLsb', ← hbyte 4 (by decide), ← hbyte 5 (by decide), ← hbyte 6 (by decide),
      ← hbyte 7 (by decide)]
    rfl

/-! ## The digest's bytes (R105) -/

/-- Byte `j` of each of four serialized words. Stated apart from `digestBytes`, whose type counts the
bytes as 16, so that the lemmas about `++` apply. -/
theorem fourWords_getElem (a b c d : Word) {j : Nat} (hj : j < 4) :
    (leBytes32 a ++ leBytes32 b ++ leBytes32 c ++ leBytes32 d)[j] = a.extractLsb' (8 * j) 8 ∧
      (leBytes32 a ++ leBytes32 b ++ leBytes32 c ++ leBytes32 d)[4 + j] = b.extractLsb' (8 * j) 8 ∧
      (leBytes32 a ++ leBytes32 b ++ leBytes32 c ++ leBytes32 d)[8 + j] = c.extractLsb' (8 * j) 8 ∧
      (leBytes32 a ++ leBytes32 b ++ leBytes32 c ++ leBytes32 d)[12 + j] =
        d.extractLsb' (8 * j) 8 := by
  refine ⟨?_, ?_, ?_, ?_⟩
  · rw [Vector.getElem_append_left (by omega), Vector.getElem_append_left (by omega),
      Vector.getElem_append_left hj, leBytes32_getElem a hj]
  · rw [Vector.getElem_append_left (by omega), Vector.getElem_append_left (by omega),
      Vector.getElem_append_right _ (by omega), leBytes32_getElem b (by omega),
      Nat.add_sub_cancel_left]
  · rw [Vector.getElem_append_left (by omega), Vector.getElem_append_right _ (by omega),
      leBytes32_getElem c (by omega), Nat.add_sub_cancel_left]
  · rw [Vector.getElem_append_right _ (by omega), leBytes32_getElem d (by omega),
      Nat.add_sub_cancel_left]

/-- Byte `j` of each word of the accumulator in the digest (R105). -/
theorem digestBytes_getElem (acc : Accumulator) {j : Nat} (hj : j < 4) :
    (digestBytes acc)[j] = acc.a.extractLsb' (8 * j) 8 ∧
      (digestBytes acc)[4 + j] = acc.b.extractLsb' (8 * j) 8 ∧
      (digestBytes acc)[8 + j] = acc.c.extractLsb' (8 * j) 8 ∧
      (digestBytes acc)[12 + j] = acc.d.extractLsb' (8 * j) 8 :=
  fourWords_getElem acc.a acc.b acc.c acc.d hj

/-- Read as one number `dout` is `{D, C, B, A}` (D16). -/
theorem doutOf_digestBytes (acc : Accumulator) :
    doutOf (digestBytes acc) = acc.d ++ acc.c ++ acc.b ++ acc.a := by
  obtain ⟨a0, b0, c0, d0⟩ := digestBytes_getElem acc (j := 0) (by decide)
  obtain ⟨a1, b1, c1, d1⟩ := digestBytes_getElem acc (j := 1) (by decide)
  obtain ⟨a2, b2, c2, d2⟩ := digestBytes_getElem acc (j := 2) (by decide)
  obtain ⟨a3, b3, c3, d3⟩ := digestBytes_getElem acc (j := 3) (by decide)
  rw [doutOf, a0, a1, a2, a3, b0, b1, b2, b3, c0, c1, c2, c3, d0, d1, d2, d3, le32_leBytes32,
    le32_leBytes32, le32_leBytes32, le32_leBytes32]

/-- The bytes of four words put together: each byte lies in one word. -/
theorem extractLsb'_fourWords (a b c d : Word) {k : Nat} (hk : k < 4) :
    (d ++ c ++ b ++ a).extractLsb' (8 * k) 8 = a.extractLsb' (8 * k) 8 ∧
      (d ++ c ++ b ++ a).extractLsb' (8 * (4 + k)) 8 = b.extractLsb' (8 * k) 8 ∧
      (d ++ c ++ b ++ a).extractLsb' (8 * (8 + k)) 8 = c.extractLsb' (8 * k) 8 ∧
      (d ++ c ++ b ++ a).extractLsb' (8 * (12 + k)) 8 = d.extractLsb' (8 * k) 8 := by
  refine ⟨?_, ?_, ?_, ?_⟩
  · rw [BitVec.extractLsb'_append_eq_of_add_le (by omega)]
  · rw [BitVec.extractLsb'_append_eq_of_le (by omega),
      BitVec.extractLsb'_append_eq_of_add_le (by omega), show 8 * (4 + k) - 32 = 8 * k by omega]
  · rw [BitVec.extractLsb'_append_eq_of_le (by omega), BitVec.extractLsb'_append_eq_of_le (by omega),
      BitVec.extractLsb'_append_eq_of_add_le (by omega), show 8 * (8 + k) - 32 - 32 = 8 * k by omega]
  · rw [BitVec.extractLsb'_append_eq_of_le (by omega), BitVec.extractLsb'_append_eq_of_le (by omega),
      BitVec.extractLsb'_append_eq_of_le (by omega), show 8 * (12 + k) - 32 - 32 - 32 = 8 * k by omega]

/-- Settles O30: byte `j` of `dout` and byte `j` of the digest are the same byte of the same word. -/
theorem digestSerializesTheAccumulator : Obligations.DigestSerializesTheAccumulator := by
  intro acc
  refine ⟨fun j hj => digestBytes_getElem acc hj, fun j hj => ?_, doutOf_digestBytes acc⟩
  obtain ⟨k, hk, hj⟩ : ∃ k < 4, j = k ∨ j = 4 + k ∨ j = 8 + k ∨ j = 12 + k :=
    ⟨j % 4, by omega, by omega⟩
  obtain ⟨ha, hb, hc, hd⟩ := digestBytes_getElem acc hk
  obtain ⟨ha', hb', hc', hd'⟩ := extractLsb'_fourWords acc.a acc.b acc.c acc.d hk
  rw [doutOf_digestBytes]
  obtain rfl | rfl | rfl | rfl := hj
  · exact ha'.trans ha.symm
  · exact hb'.trans hb.symm
  · exact hc'.trans hc.symm
  · exact hd'.trans hd.symm

/-! ## The final blocks as byte strings (R101, R102) -/

/-- The buffered bytes, the marker and `zeros` zero bytes (R101 steps 1 to 3). `dataByte_eq_getD` ties
it to the block that FINALIZE builds. -/
def paddedData (c : Context) (zeros : Nat) : List Byte :=
  c.pending ++ [0x80] ++ List.replicate zeros 0x00

@[simp] theorem paddedData_length (c : Context) (zeros : Nat) :
    (paddedData c zeros).length = c.fill.val + 1 + zeros := by
  simp [paddedData, Nat.add_assoc, Nat.add_comm 1]

/-- The scratch block reads as the padded data, with zeros behind them (R101). -/
theorem dataByte_eq_getD (c : Context) (zeros : Nat) (j : Fin 64) :
    dataByte c j = (paddedData c zeros).getD j.val 0x00 := by
  rw [List.getD_eq_getElem?_getD, paddedData, List.append_assoc, dataByte]
  by_cases hdata : j.val < c.fill.val
  · have hlt : j.val < c.pending.length := by rw [pending_length]; exact hdata
    rw [if_pos hdata, List.getElem?_append_left hlt, List.getElem?_eq_getElem hlt, pending_getElem,
      Option.getD_some]
  · rw [if_neg hdata, List.getElem?_append_right (by simpa using hdata), pending_length]
    by_cases hmarker : j.val = c.fill.val
    · rw [if_pos hmarker, hmarker, Nat.sub_self]; rfl
    · obtain ⟨m, hm⟩ : ∃ m, j.val - c.fill.val = m + 1 := ⟨j.val - c.fill.val - 1, by omega⟩
      rw [if_neg hmarker, hm, List.singleton_append, List.getElem?_cons_succ,
        List.getElem?_getD_replicate_default_eq]

/-- The extra block is the padded data, however many of its zeros are written out (R101 step 2). -/
theorem extraBlock_eq_blockOfList (c : Context) (zeros : Nat) :
    extraBlock c = blockOfList (paddedData c zeros) :=
  congrArg Vector.ofFn (funext (dataByte_eq_getD c zeros))

/-- The last block is 56 bytes and the length tail (R101 steps 3 and 4). -/
theorem lastBlock_eq_blockOfList {c : Context} {l : List Byte} (hlen : l.length = 56)
    (hl : ∀ j : Fin 64, (if needsExtraBlock c then 0x00 else dataByte c j) = l.getD j.val 0x00) :
    lastBlock c = blockOfList (l ++ (lengthTail c.count).toList) := by
  refine congrArg Vector.ofFn (funext fun j => ?_)
  rw [List.getD_eq_getElem?_getD]
  by_cases htail : 56 ≤ j.val
  · rw [dif_pos htail, List.getElem?_append_right (by omega), hlen,
      List.getElem?_eq_getElem (by simp; omega), Option.getD_some, Vector.getElem_toList]
  · rw [dif_neg htail, List.getElem?_append_left (by omega), hl, List.getD_eq_getElem?_getD]

/-- With at most 55 buffered bytes the tail stands behind them and their padding (R102). -/
theorem lastBlock_one {c : Context} (h : c.fill.val ≤ 55) :
    lastBlock c =
      blockOfList (paddedData c (55 - c.fill.val) ++ (lengthTail c.count).toList) := by
  refine lastBlock_eq_blockOfList (by rw [paddedData_length]; omega) fun j => ?_
  rw [needsExtraBlock_eq_false h, if_neg (by decide), dataByte_eq_getD]

/-- With 56 or more the tail stands behind zeros alone (R102). -/
theorem lastBlock_two {c : Context} (h : 56 ≤ c.fill.val) :
    lastBlock c = blockOfList (List.replicate 56 0x00 ++ (lengthTail c.count).toList) := by
  refine lastBlock_eq_blockOfList List.length_replicate fun j => ?_
  rw [needsExtraBlock_eq_true h, if_pos rfl, List.getD_eq_getElem?_getD,
    List.getElem?_getD_replicate_default_eq]

/-- FINALIZE writes the accumulator and `FIN`, nothing else (R107). -/
theorem finalize_eq (c : Context) :
    finalize c = { acc := finalAccumulator c, count := c.count, buf := c.buf, fill := c.fill,
                   fin := true } :=
  Context.eq_of_fields (finalize_acc c) (finalize_count c) (finalize_buf c) (finalize_fill c)
    (finalize_fin c)

/-- Settles O28: the final blocks by whether the tail has room behind the marker. -/
theorem firstDigestFinalizes : Obligations.FirstDigestFinalizes := by
  intro s hf n tail acc'
  have hacc : finalAccumulator s.ctx = acc' := by
    by_cases hroom : s.ctx.fill.val ≤ 55
    · rw [finalAccumulator_one hroom, lastBlock_one hroom]
      exact (if_pos hroom).symm
    · have hfull : 56 ≤ s.ctx.fill.val := by omega
      rw [finalAccumulator_two hfull, lastBlock_two hfull, extraBlock_eq_blockOfList s.ctx (63 - n)]
      exact (if_neg hroom).symm
  rw [exec_digest, execDigest_absorbing hf, finalize_eq, hacc]
  rfl

/-! ## The padded message as a whole (R103) -/

/-- COMPRESS of one whole piece. -/
theorem compressAll_piece (acc : Accumulator) {l : List Byte} (h : l.length = 64) :
    compressAll acc l = compress acc (blockOfList l) := by
  rw [← List.append_nil l, compressAll_piece_append acc h, compressAll_short _ (by decide),
    List.append_nil]

/-- FINALIZE is the chain of COMPRESS over the buffered bytes and their padding, in one piece or in two
(R102, R103). -/
theorem finalAccumulator_eq_compressAll (c : Context) :
    finalAccumulator c =
      compressAll c.acc (paddedData c (padZeros c.fill.val) ++ (lengthTail c.count).toList) := by
  have hlt := c.fill.isLt
  have hmod : c.fill.val % 64 = c.fill.val := Nat.mod_eq_of_lt hlt
  by_cases hroom : c.fill.val ≤ 55
  · rw [padZeros_eq, hmod, if_pos hroom, finalAccumulator_one hroom, lastBlock_one hroom,
      compressAll_piece _ (by simp; omega)]
  · have hzeros : paddedData c (119 - c.fill.val) =
        paddedData c (63 - c.fill.val) ++ List.replicate 56 0x00 := by
      rw [paddedData, paddedData, List.append_assoc _ _ (List.replicate 56 _),
        List.replicate_append_replicate, show 63 - c.fill.val + 56 = 119 - c.fill.val by omega]
    rw [padZeros_eq, hmod, if_neg hroom, finalAccumulator_two (by omega), lastBlock_two (by omega),
      extraBlock_eq_blockOfList c (63 - c.fill.val), hzeros, List.append_assoc,
      compressAll_piece_append _ (by simp; omega), compressAll_piece _ (by simp)]

/-- The zeros depend on the length modulo a block (R103). -/
theorem padZeros_mod (n : Nat) : padZeros (n % 64) = padZeros n := by
  rw [padZeros_eq, padZeros_eq, Nat.mod_mod]

/-- `COUNT` is no buffered byte. -/
theorem pending_advanceCount (n : Nat) (c : Context) : (advanceCount n c).pending = c.pending := rfl

/-- The bulk form from the initial state, where no byte is buffered (R92). -/
theorem absorbAll_initial (msg : List Byte) :
    (absorbAll Context.initial msg).acc = compressAll initialAccumulator msg ∧
      (absorbAll Context.initial msg).pending = leftover msg ∧
      (absorbAll Context.initial msg).fill.val = msg.length % 64 := by
  have hempty : Context.initial.pending = [] := rfl
  obtain ⟨hacc, hpending⟩ := absorbAll_bulk Context.initial msg
  have hfill := absorbAll_fill_val Context.initial msg
  rw [hempty, List.nil_append] at hacc hpending
  rw [initial_fill, Fin.val_zero, Nat.zero_add] at hfill
  exact ⟨hacc, hpending, hfill⟩

/-- FINALIZE after a message from the initial state is the chain over the padded message (R103). -/
theorem finalAccumulator_update_initial (msg : List Byte) :
    finalAccumulator (contextAfter (.update msg) Context.initial) =
      compressAll initialAccumulator (paddedMessage msg) := by
  obtain ⟨hacc, hpending, hfill⟩ := absorbAll_initial msg
  have hcount : Context.initial.count + zext64 msg.length = zext64 msg.length := BitVec.zero_add _
  rw [contextAfter_update_absorbing msg initial_fin, finalAccumulator_eq_compressAll, paddedData,
    pending_advanceCount, advanceCount_acc, advanceCount_fill, advanceCount_count, absorbAll_count,
    hacc, hpending, hfill, hcount, padZeros_mod, paddedMessage]
  simp only [List.append_assoc]
  exact (compressAll_append initialAccumulator msg _).symm

/-- UPDATEs in phase ABSORBING are all accepted, and write what one UPDATE with all their payloads
writes (R90, R92). -/
theorem runCommands_map_update_absorbing (chunks : List (List Byte)) {s : State}
    (hf : s.ctx.fin = false) :
    runCommands (chunks.map .update) s =
      .next { s with ctx := contextAfter (.update chunks.flatten) s.ctx,
                     rsp := s.rsp ++ List.replicate chunks.length ⟨.ok, none⟩ } := by
  induction chunks generalizing s with
  | nil => simp
  | cons d chunks ih =>
    have haccepted : s.ctx.fin = true → d = [] := fun h => absurd (hf.symm.trans h) (by decide)
    rw [List.map_cons, runCommands_cons (exec_eq (.update d) s), responseTo_update_ok haccepted,
      ih (by rw [contextAfter_update_fin, hf]), List.flatten_cons, contextAfter_update_append,
      List.append_assoc]
    rfl

/-- The first DIGEST after a message from the initial state answers the digest of the message (R103). -/
theorem responseTo_digest_update_initial (msg : List Byte) :
    responseTo .digest (contextAfter (.update msg) Context.initial) =
      ⟨.ok, some (doutOf (digestOf msg))⟩ := by
  have hfin := contextAfter_update_fin msg Context.initial
  rw [responseTo, contextAfter_digest_absorbing (hfin.trans initial_fin), finalize_acc,
    finalAccumulator_update_initial, digestOf]

/-- Settles O33: RESET, the UPDATEs as one UPDATE of the whole message, and FINALIZE as the chain over
the padded message. -/
theorem hashIsTheDigestOfThePaddedMessage : Obligations.HashIsTheDigestOfThePaddedMessage := by
  intro chunks s
  have hupdates := runCommands_map_update_absorbing chunks
    (s := { s with ctx := Context.initial, rsp := s.rsp ++ [⟨.ok, none⟩] }) initial_fin
  have hrun := (runCommands_cons (exec_eq .reset s) (chunks.map .update)).trans hupdates
  refine ⟨_, (runCommands_append hrun [.digest]).trans (runCommands_cons (exec_eq .digest _) []),
    contextAfter_digest_fin _, rfl, rfl, ?_⟩
  rw [responseTo_digest_update_initial]

end Sys2Proof.Machine

namespace Sys2Proof.Machine

/-! ## RESET and the facade HASH (`43_reset_and_facade.md`) -/

/-- HASH is RESET, UPDATEs whose payloads together are the whole payload, and DIGEST (R62, R118). How
many UPDATEs there are depends on `MAX_BURST`; that they cover the payload does not. -/
theorem hashCommands_eq_chunks (data : List Byte) :
    ∃ chunks : List (List Byte),
      hashCommands data = .reset :: chunks.map .update ++ [.digest] ∧ chunks.flatten = data := by
  obtain ⟨hcover, -⟩ := splitBursts_spec (size := Config.maxBurst) (by decide)
    (Nat.lt_succ_self data.length)
  exact ⟨_, rfl, hcover⟩

/-- Settles O34: HASH is one partition of its payload into UPDATEs between RESET and DIGEST, and every
partition answers the digest of the whole (O33). -/
theorem hashNeverFailsAndForgetsTheState : Obligations.HashNeverFailsAndForgetsTheState := by
  intro data s
  obtain ⟨chunks, hcommands, hcover⟩ := hashCommands_eq_chunks data
  obtain ⟨t, hrun, hfin, -, -, hrsp⟩ := hashIsTheDigestOfThePaddedMessage chunks s
  refine ⟨t, ⟨.ok, none⟩ :: List.replicate chunks.length ⟨.ok, none⟩, ?_, ?_, ?_, ?_⟩
  · rw [hcommands, hrun]
  · rw [hrsp, hcover, List.append_assoc s.rsp, List.singleton_append]
  · exact List.forall_mem_cons.mpr ⟨rfl, fun _ => List.eq_of_mem_replicate⟩
  · exact (phase_eq_finished t.ctx).mpr hfin

/-- Settles O11: RESET writes the initial context, whatever context it finds, and leaves `CMD` and `DIN`;
the words and the empty buffer are the initial context's own (R115). -/
theorem resetCommandLeavesInitialState : Obligations.ResetCommandLeavesInitialState := by
  intro s
  refine ⟨_, exec_eq .reset s, ?_⟩
  rw [contextAfter_reset]
  exact ⟨rfl, rfl, rfl, rfl, initial_count, initial_fill, Memory.read_nil, initial_fin, rfl, rfl, rfl⟩

end Sys2Proof.Machine

namespace Sys2Proof.Machine

/-! ## The exceptions (`60_exceptions.md` R126, R129, R132) -/

/-- The commands a context rejects: the non-empty UPDATEs in phase FINISHED (R126).
`responseTo_status_eq_ok_iff` and `responseTo_of_rejects` tie it to the responses. -/
def Context.Rejects (c : Context) (i : Instr) : Prop :=
  ∃ data, i = .update data ∧ data ≠ [] ∧ c.fin = true

/-- A rejected command answers AlreadyFinished and carries no digest (R125, R126). -/
theorem responseTo_of_rejects {c : Context} {i : Instr} (h : c.Rejects i) :
    responseTo i c = ⟨.alreadyFinished, none⟩ := by
  obtain ⟨data, rfl, hd, hf⟩ := h
  exact responseTo_update_alreadyFinished hd hf

/-- A rejected command writes nothing (R129). -/
theorem contextAfter_of_rejects {c : Context} {i : Instr} (h : c.Rejects i) : contextAfter i c = c := by
  obtain ⟨data, rfl, -, hf⟩ := h
  exact contextAfter_update_finished data hf

/-- The rejected commands are the only ones that answer a status other than OK. -/
theorem responseTo_status_eq_ok_iff (i : Instr) (c : Context) :
    (responseTo i c).status = .ok ↔ ¬ c.Rejects i := by
  constructor
  · intro hok hrej
    rw [responseTo_of_rejects hrej] at hok
    cases hok
  · intro h
    cases i with
    | reset => rfl
    | digest => rfl
    | update data =>
      rw [responseTo_update_ok fun hf => by_contra fun hd => h ⟨data, rfl, hd, hf⟩]

/-- Status code 1 is the answer to the rejected commands and to no other. -/
theorem responseTo_code_eq_one_iff (i : Instr) (c : Context) :
    (responseTo i c).status.code = 1 ↔ c.Rejects i := by
  constructor
  · intro hcode
    by_contra h
    rw [(responseTo_status_eq_ok_iff i c).mpr h] at hcode
    cases hcode
  · intro h
    rw [responseTo_of_rejects h]
    rfl

/-- A command that fails adds its response and writes nothing else (R129). -/
theorem eq_of_exec_not_ok {i : Instr} {s t : State} {r : Response} (h : exec i s = .next t)
    (hrsp : t.rsp = s.rsp ++ [r]) (hfail : r.status ≠ .ok) : t = { s with rsp := s.rsp ++ [r] } := by
  obtain rfl := eq_of_exec_next h
  obtain rfl : responseTo i s.ctx = r := List.singleton_inj.mp (List.append_cancel_left hrsp)
  have hrej : s.ctx.Rejects i := by_contra fun hn => hfail ((responseTo_status_eq_ok_iff i s.ctx).mpr hn)
  rw [contextAfter_of_rejects hrej]

/-- Settles O35: a failing command is a rejected one, and of what a step can do only executing a command
writes the context. -/
theorem failingCommandsChangeNothing : Obligations.FailingCommandsChangeNothing := by
  refine ⟨fun i s t r => eq_of_exec_not_ok, fun s t r h hrsp hfail => ?_⟩
  rcases step_cases s with ⟨-, hstep⟩ | ⟨cw, cmd', -, ⟨-, hstep⟩ | ⟨-, hstep⟩ | ⟨i, din', -, hstep⟩⟩
  · cases hstep.symm.trans h; rfl
  · cases hstep.symm.trans h; rfl
  · cases hstep.symm.trans h; rfl
  · rw [eq_of_exec_not_ok (hstep.symm.trans h) hrsp hfail]

/-- Settles O36: R126's condition is the one under which the context rejects the command. -/
theorem alreadyFinishedExactly : Obligations.AlreadyFinishedExactly := by
  intro i s
  have hcode := responseTo_code_eq_one_iff i s.ctx
  refine ⟨_, responseTo i s.ctx, exec_eq i s, rfl, hcode, fun h => ?_⟩
  have hrej := hcode.mp h
  exact ⟨contextAfter_of_rejects hrej, by rw [responseTo_of_rejects hrej]⟩

/-- The header word of an UPDATE of length 0 takes nothing from `DIN` (R53). -/
theorem decode_update_zero {cw : Word} (h : decodeHeader cw = .update 0) (din : List Byte) :
    decode cw din = .command (.update []) din := decode_update h (Nat.zero_le din.length)

/-- The rejection of a command, read off its header word: R132's second and third checks. -/
theorem rejects_decoded_iff {cw : Word} {din rest : List Byte} {i : Instr}
    (h : decode cw din = .command i rest) (c : Context) :
    c.Rejects i ↔ decodeHeader cw ≠ .update 0 ∧ opField cw = 0b01 ∧ c.fin = true := by
  obtain ⟨hwf, (rfl : i.header = cw), -⟩ := decodedCommandEncodesBack cw din i rest h
  cases i with
  | reset => exact ⟨fun ⟨_, hi, _⟩ => (nomatch hi), fun ⟨_, hop, _⟩ => absurd hop (by decide)⟩
  | digest => exact ⟨fun ⟨_, hi, _⟩ => (nomatch hi), fun ⟨_, hop, _⟩ => absurd hop (by decide)⟩
  | update data =>
    have hop : opField (Instr.update data).header = 0b01 := by rw [header_update, opField_append]
    have hempty : decodeHeader (Instr.update data).header = .update 0 ↔ data = [] := by
      rw [decodeHeader_update hop, Header.update.injEq, ← BitVec.toNat_inj,
        argField_header_update hwf]
      exact List.length_eq_zero_iff
    rw [Ne, hempty]
    constructor
    · rintro ⟨_, ⟨⟩, hd, hf⟩
      exact ⟨hd, hop, hf⟩
    · rintro ⟨hd, -, hf⟩
      exact ⟨data, rfl, hd, hf⟩

/-- Settles O37, check by check: behind a reserved word and an empty UPDATE, the third check is whether
the context rejects the decoded command. -/
theorem checksComeInOrder : Obligations.ChecksComeInOrder := by
  intro s cw cmd' hcmd hlen
  by_cases hill : decodeHeader cw = .illegal
  · exact ⟨_, _, step_of_illegal hcmd hill, rfl, by rw [if_pos hill]; exact ⟨rfl, rfl⟩⟩
  obtain ⟨i, hdec⟩ := decode_of_payload_le hill hlen
  have hexec := exec_eq i { s with cmd := cmd', din := s.din.drop (payloadLength (decodeHeader cw)) }
  have hrejects := rejects_decoded_iff hdec s.ctx
  refine ⟨_, responseTo i s.ctx, (stepRunsDecodedCommand s cw cmd' i _ hcmd hdec).trans hexec, rfl, ?_⟩
  rw [if_neg hill]
  split_ifs with hempty hfinished
  · have hok := (responseTo_status_eq_ok_iff i s.ctx).mpr fun hrej => (hrejects.mp hrej).1 hempty
    obtain ⟨rfl, -⟩ := Decoded.command.inj (hdec.symm.trans (decode_update_zero hempty s.din))
    exact ⟨hok, contextAfter_update_nil s.ctx⟩
  · have hrej := hrejects.mpr ⟨hempty, hfinished⟩
    exact ⟨by rw [responseTo_of_rejects hrej], contextAfter_of_rejects hrej⟩
  · have hok := (responseTo_status_eq_ok_iff i s.ctx).mpr fun hrej => hfinished (hrejects.mp hrej).2
    exact ⟨hok, i, _, hdec, hexec⟩

/-- Settles O47: hardware reset at `k` is one of the events, and like every event it writes `k` alone. -/
theorem eachInstanceHasItsOwnEvents : Obligations.EachInstanceHasItsOwnEvents := by
  intro n sys
  refine ⟨fun order => System.runEvents_next order sys, fun k => ⟨?_, ?_, fun j hj => ?_⟩⟩
  · exact System.onEvent_eq (onEvent_hardwareReset sys[k])
  · exact Vector.getElem_set_self k.isLt
  · exact Vector.getElem_set_ne k.isLt j.isLt fun h => hj (Fin.ext h.symm)

end Sys2Proof.Machine

namespace Sys2Proof.Machine

/-! ## Reset and the runs behind it (`70_reset_and_hazards.md` R150, R151, R160) -/

/-- Settles O12: the values are the initial context's own, and no channel holds anything. -/
theorem hardwareResetLeavesInitialState : Obligations.HardwareResetLeavesInitialState :=
  fun _ => ⟨rfl, rfl, initial_count, initial_fill, Memory.read_nil, initial_fin,
    (phase_eq_absorbing _).mpr initial_fin, rfl, rfl, rfl⟩

/-- Settles O13: RESET leaves the context of hardware reset, and a run's context and responses are a
function of the context it starts from. -/
theorem resetMakesHistoryIrrelevant : Obligations.ResetMakesHistoryIrrelevant := by
  intro p s
  obtain ⟨c, rs, hrun⟩ := runCommands_of_ctx p Context.initial
  refine ⟨c, rs, hrun (hardwareReset s) rfl, ?_⟩
  rw [runCommands_cons (exec_eq .reset s), contextAfter_reset]
  exact hrun _ rfl

/-- A run answers one response per command, behind the earlier ones (R160). -/
theorem runCommands_responses (p : List Instr) (s : State) :
    ∃ (t : State) (rs : List Response),
      runCommands p s = .next t ∧ t.rsp = s.rsp ++ rs ∧ rs.length = p.length := by
  induction p generalizing s with
  | nil => exact ⟨s, [], rfl, (List.append_nil s.rsp).symm, rfl⟩
  | cons i p ih =>
    have hexec := exec_eq i s
    obtain ⟨t, rs, hrun, hrsp, hlen⟩ :=
      ih { s with ctx := contextAfter i s.ctx, rsp := s.rsp ++ [responseTo i s.ctx] }
    refine ⟨t, responseTo i s.ctx :: rs, (runCommands_cons hexec p).trans hrun, ?_, ?_⟩
    · rw [hrsp, List.append_assoc, List.singleton_append]
    · rw [List.length_cons, hlen, List.length_cons]

/-- Settles O10: every step answers, and so does every command of a run, with its one response. -/
theorem everyRunEndsWithOneResponseEach : Obligations.EveryRunEndsWithOneResponseEach :=
  ⟨step_next, runCommands_responses⟩

/-! ## Waiting for payload (`70_reset_and_hazards.md` R155) -/

/-- A step that finds an UPDATE short of payload holds the state (R155). -/
theorem step_of_short {s : State} {cw : Word} {cmd' : List Word} {len : BitVec 30}
    (hcmd : s.cmd = cw :: cmd') (hhdr : decodeHeader cw = .update len)
    (hshort : s.din.length < len.toNat) : step s = .next s := by
  have hdec := decode_short hhdr hshort
  rcases step_cases s with ⟨-, hstep⟩ | ⟨cw₁, cmd₁, hcmd₁, hdone⟩
  · exact hstep
  · cases hcmd.symm.trans hcmd₁
    rcases hdone with ⟨-, hstep⟩ | ⟨hdec₁, -⟩ | ⟨i, din', hdec₁, -⟩
    · exact hstep
    · cases hdec.symm.trans hdec₁
    · cases hdec.symm.trans hdec₁

/-- Settles O8: a later header word leaves the oldest one and `DIN`, and bytes sent leave `CMD`, so
whether `DIN` holds the oldest header word's payload decides each step. -/
theorem shortUpdateWaitsForItsPayload : Obligations.ShortUpdateWaitsForItsPayload := by
  intro s cw cmd' len hcmd hhdr hshort
  refine ⟨step_of_short hcmd hhdr hshort, fun later => ?_, fun bytes hstill => ?_,
    fun bytes henough => ?_, rfl⟩
  · have hcmd_later : (sendHeader later s).cmd = cw :: (cmd' ++ [later]) := by
      rw [sendHeader_cmd, hcmd, List.cons_append]
    exact step_of_short hcmd_later hhdr hshort
  · have hshort_still : (sendPayload bytes s).din.length < len.toNat := by
      rwa [sendPayload_din, List.length_append]
    exact step_of_short (s := sendPayload bytes s) hcmd hhdr hshort_still
  · rw [← List.length_append] at henough
    exact stepRunsDecodedCommand (sendPayload bytes s) cw cmd' _ _ hcmd (decode_update hhdr henough)

end Sys2Proof.Machine

namespace Sys2Proof.Machine

/-! ## Idling between commands (`60_exceptions.md` section 9) -/

/-- Settles O7: of what a step can do, all but idling takes a header word, and an empty `CMD` has none. -/
theorem idleBlockHoldsItsState : Obligations.IdleBlockHoldsItsState := by
  intro s hempty
  rcases step_cases s with ⟨-, hstep⟩ | ⟨cw, cmd', hcmd, -⟩
  · exact hstep
  · cases hempty.symm.trans hcmd

end Sys2Proof.Machine
